-- ==== Sys2Proof/Word.lean ====
section
/-! DEFINITION. The words of the block: bytes and 32-bit values. Every value of a parametric width (a sequence number, a stream
id, a time) is an unsigned integer (00_scope.md section 5.1), a natural number here; its bound is stated by `Instr.Legal` and
`State.Inv` (log 12). -/

namespace Sys2Proof

/-- A byte is 8 bits (R30). -/
abbrev Byte := BitVec 8

/-- A 32-bit value: a packet header (R51) or a result value (R60). -/
abbrev Word32 := BitVec 32

/-- `zeros(k)`: `k` bytes of `0x00` (00_scope.md section 5.1). -/
def zeros (k : Nat) : List Byte := List.replicate k 0

end Sys2Proof
end

