-- ==== Sys2Proof/Config.lean ====
section
/-! DEFINITION. The parameters of an instance (R5, R6), the two reference configurations (R7), and the values the spec leaves
open outside the domain of a function or on unused wires, as uninterpreted constants (U5, U14; log 13, log 14). -/

namespace Sys2Proof

/-- The parameters of one instance (R5). They are constant from reset on; no command writes them (R20, D25). -/
structure Config where
  /-- `SEQ_W`, the width of a sequence number. -/
  seqW : Nat
  /-- `MAX_UNACKED`, the capacity of the unacked send buffer. -/
  maxUnacked : Nat
  /-- `FRAME_SIZES`, the payload lengths the transport can carry. -/
  frameSizes : List Nat
  /-- `STREAM_ID_W`, the width of the stream id tag. -/
  streamIdW : Nat
  /-- `IN_MAX`, the greatest length of the chunk of one WRITE. -/
  inMax : Nat
  /-- `MAX_BEFORE_ACK`, the batch threshold of the RX scheduler. -/
  maxBeforeAck : Nat
  /-- `ACK_INTERVAL_MS`, the period of the keepalive acknowledgement. -/
  ackIntervalMs : Nat
  /-- `TIME_W`, the width of the millisecond time input. -/
  timeW : Nat
  /-- `TX_BADACK_ADOPT`, whether a bad acknowledgement's number becomes `TX.lastAcked`. -/
  txBadackAdopt : Bool
deriving DecidableEq, Repr

/-- `SEQ_MOD = 2^SEQ_W` (R5). -/
def Config.seqMod (c : Config) : Nat := 2 ^ c.seqW

/-- `SEQ_N = SEQ_MOD - 1`, the number of usable sequence numbers (R5). -/
def Config.seqN (c : Config) : Nat := c.seqMod - 1

/-- `2^TIME_W`, the modulus of the time line (R79). -/
def Config.timeMod (c : Config) : Nat := 2 ^ c.timeW

/-- `MAX_FRAME`, the last (largest) element of `FRAME_SIZES` (R5). -/
def Config.maxFrame (c : Config) : Nat := c.frameSizes.getLast?.getD 0

/-- The legal values of R5 with the constraint of R6. An instance outside them is outside the spec and is refused (R6, U7). -/
abbrev Config.Legal (c : Config) : Prop :=
  (2 ≤ c.seqW ∧ c.seqW ≤ 16) ∧
  (1 ≤ c.maxUnacked ∧ c.maxUnacked ≤ c.seqMod - 2) ∧
  (c.frameSizes ≠ [] ∧ (∀ n ∈ c.frameSizes, 1 ≤ n) ∧ c.frameSizes.Pairwise (· < ·) ∧ c.maxFrame ≤ 255) ∧
  (1 ≤ c.streamIdW ∧ c.streamIdW ≤ 8) ∧
  (c.maxFrame ≤ c.inMax ∧ c.inMax ≤ 65535) ∧
  (1 ≤ c.maxBeforeAck ∧ c.maxBeforeAck ≤ 65535) ∧
  (1 ≤ c.ackIntervalMs ∧ c.ackIntervalMs ≤ 2 ^ (c.timeW - 1) - 1) ∧
  (8 ≤ c.timeW ∧ c.timeW ≤ 32)

/-- `CFG_REF` (R7). -/
def Config.ref : Config where
  seqW := 16
  maxUnacked := 8
  frameSizes := [1, 2, 3, 4, 5, 6, 7, 8, 12, 16, 20, 24, 32, 48, 64]
  streamIdW := 8
  inMax := 255
  maxBeforeAck := 4
  ackIntervalMs := 100
  timeW := 32
  txBadackAdopt := true

/-- `CFG_SMALL` (R7). -/
def Config.small : Config where
  seqW := 3
  maxUnacked := 4
  frameSizes := [1, 2, 3, 4, 5, 6, 7, 8]
  streamIdW := 2
  inMax := 16
  maxBeforeAck := 2
  ackIntervalMs := 10
  timeW := 32
  txBadackAdopt := true

/-- `seq_dist(a, b)` where it is not defined, `b = 0` or `b = a` (R74, U14): any value; no command evaluates it (R96). -/
opaque Config.seqDistOutside : Nat → Nat → Nat

/-- `frame_round(n)` where it is not defined, `n = 0` or `n > MAX_FRAME` (R83, U14): any value; no command evaluates it. -/
opaque Config.frameRoundOutside : Nat → Nat

/-- `time_remaining(now, t)` where the deadline has passed (R81, U14): any value; no command evaluates it. -/
opaque Config.timeRemainingOutside : Nat → Nat → Nat

/-- The bits of `frm_data` above byte `len - 1` (R61, U5): any value, one for each transfer on the frame port and each byte. -/
opaque Config.frameDataAbove : Nat → Nat → Byte

end Sys2Proof
end

