-- ==== Sys2Proof/Syntax.lean ====
section
/-! DEFINITION. The command set SWFS-1: one constructor for each row of spec/opcode_table.json (R52). The sampled `now` of
CHECK_PACKET and HANDLE_TIMER is an implicit operand, not part of the packet (R58); it is the field `now` of State. -/

namespace Sys2Proof

/-- The four commands with their decoded operands (R52 to R57). -/
inductive Instr where
  /-- WRITE: buffer one chunk and send it as a frame (R53, R85). -/
  | write (sid : Nat) (chunk : List Byte)
  /-- NOTIFY_ACK: act on one acknowledgement number received from the peer (R54, R91). -/
  | notifyAck (seq : Nat)
  /-- CHECK_PACKET: is an inbound frame the next one of the stream (R55, R110)? -/
  | checkPacket (seq : Nat)
  /-- HANDLE_TIMER: send the keepalive acknowledgement if it is due (R56, R115). -/
  | handleTimer
deriving DecidableEq, Repr

/-- The pseudo-instruction RESET_ACK is `NOTIFY_ACK 0` (R65). -/
def Instr.resetAck : Instr := .notifyAck 0

end Sys2Proof
end

