-- ==== Sys2Proof/WellFormed.lean ====
section
/-! DEFINITION. When a command is well formed under a configuration: its operands fit the fields R53 to R57 give them. -/

namespace Sys2Proof

/-- The operand ranges of R53 (WRITE), R54 (NOTIFY_ACK), R55 (CHECK_PACKET) and R56 (HANDLE_TIMER). -/
def Instr.wf (c : Config) : Instr → Bool
  | .write sid chunk => decide (sid < 2 ^ c.streamIdW) && decide (chunk.length ≤ c.inMax)
  | .notifyAck seq => decide (seq < c.seqMod)
  | .checkPacket seq => decide (seq < c.seqMod)
  | .handleTimer => true

/-- The operand ranges as a proposition. -/
abbrev Instr.Legal (c : Config) (i : Instr) : Prop := i.wf c = true

end Sys2Proof
end

