-- ==== Sys2Proof/Decode.lean ====
section
/-! DEFINITION. Command packets: the header and its fields (R51), the decoder, total and rejecting by name (R53 to R59), the
encoder, and the reading of an opcode-table word (log 19). -/

namespace Sys2Proof

/-- The 32-bit header `H` (R51). -/
abbrev Header := BitVec 32

/-- `H = b[0] + 256*b[1] + 65536*b[2] + 16777216*b[3]` (R51): little-endian (R33). -/
def header (b0 b1 b2 b3 : Byte) : Header :=
  BitVec.ofNat 32 (b0.toNat + 256 * b1.toNat + 65536 * b2.toNat + 16777216 * b3.toNat)

/-- `op`, header bits 31:30 (R51). -/
def opField (h : Header) : BitVec 2 := h.extractLsb' 30 2

/-- `rsv`, header bits 29:24, must be 0 (R51). -/
def rsvField (h : Header) : BitVec 6 := h.extractLsb' 24 6

/-- `sid`, header bits 23:16, as an unsigned integer (R51, R57). -/
def sidField (h : Header) : Nat := (h.extractLsb' 16 8).toNat

/-- `arg`, header bits 15:0, as an unsigned integer (R51, R57). -/
def argField (h : Header) : Nat := (h.extractLsb' 0 16).toNat

/-- The four operations (R52). -/
inductive Op where
  | write | notifyAck | checkPacket | handleTimer
deriving DecidableEq, Repr

/-- The `op` values of R52. -/
def Op.bits : Op → BitVec 2
  | .write => 0b00
  | .notifyAck => 0b01
  | .checkPacket => 0b10
  | .handleTimer => 0b11

/-- The operation an `op` field names (R52). -/
def Op.ofBits (b : BitVec 2) : Op :=
  if b = 0b00 then .write else if b = 0b01 then .notifyAck else if b = 0b10 then .checkPacket else .handleTimer

/-- Why a packet is illegal: the conditions of R59, in its order. -/
inductive Illegal where
  /-- Condition 1: no whole header. -/
  | shortPacket
  /-- Condition 2: `rsv != 0`. -/
  | reservedBits
  /-- Condition 3: `sid[7:STREAM_ID_W] != 0` in a WRITE. -/
  | sidHighBits
  /-- Condition 3: `arg > IN_MAX` in a WRITE. -/
  | chunkTooLong
  /-- Condition 3: `L != 4 + arg` in a WRITE. -/
  | chunkLength
  /-- Conditions 4 and 5: `sid != 0` in a command that has no stream id. -/
  | sidNotZero
  /-- Condition 4: `arg[15:SEQ_W] != 0`. -/
  | seqHighBits
  /-- Condition 5: `arg != 0` in a HANDLE_TIMER. -/
  | argNotZero
  /-- Conditions 4 and 5: `L != 4`. -/
  | trailingBytes
deriving DecidableEq, Repr

/-- "Every byte string is either exactly one of the four commands or *illegal*" (R59). -/
inductive Decoded where
  | command (i : Instr)
  | illegal (why : Illegal)
deriving DecidableEq, Repr

/-- A WRITE packet: header fields and the bytes after the header (R53, R59 condition 3). -/
def decodeWrite (c : Config) (sid arg : Nat) (rest : List Byte) : Decoded :=
  if 2 ^ c.streamIdW ≤ sid then .illegal .sidHighBits
  else if c.inMax < arg then .illegal .chunkTooLong
  else if rest.length ≠ arg then .illegal .chunkLength
  else .command (.write sid rest)

/-- A packet that carries one sequence number and nothing after the header (R54, R55, R59 condition 4). -/
def decodeSeq (c : Config) (make : Nat → Instr) (sid arg : Nat) (rest : List Byte) : Decoded :=
  if sid ≠ 0 then .illegal .sidNotZero
  else if c.seqMod ≤ arg then .illegal .seqHighBits
  else if rest.length ≠ 0 then .illegal .trailingBytes
  else .command (make arg)

/-- A HANDLE_TIMER packet (R56, R59 condition 5). -/
def decodeTimer (sid arg : Nat) (rest : List Byte) : Decoded :=
  if sid ≠ 0 then .illegal .sidNotZero
  else if arg ≠ 0 then .illegal .argNotZero
  else if rest.length ≠ 0 then .illegal .trailingBytes
  else .command .handleTimer

/-- The fields of a whole header and the bytes after it (R59 conditions 2 to 5). -/
def decodeHeader (c : Config) (h : Header) (rest : List Byte) : Decoded :=
  if rsvField h ≠ 0 then .illegal .reservedBits
  else match Op.ofBits (opField h) with
    | .write => decodeWrite c (sidField h) (argField h) rest
    | .notifyAck => decodeSeq c .notifyAck (sidField h) (argField h) rest
    | .checkPacket => decodeSeq c .checkPacket (sidField h) (argField h) rest
    | .handleTimer => decodeTimer (sidField h) (argField h) rest

/-- The decoder, total on every byte string (R59). -/
def decode (c : Config) : List Byte → Decoded
  | b0 :: b1 :: b2 :: b3 :: rest => decodeHeader c (header b0 b1 b2 b3) rest
  | _ => .illegal .shortPacket

/-- The header with the fields `op`, `sid`, `arg` and `rsv = 0` (R51, R66). -/
def packHeader (op : Op) (sid arg : Nat) : Header :=
  BitVec.ofNat 32 (1073741824 * op.bits.toNat + 65536 * sid + arg)

/-- The header of a command (R53 to R56). -/
def Instr.header : Instr → Header
  | .write sid chunk => packHeader .write sid chunk.length
  | .notifyAck seq => packHeader .notifyAck 0 seq
  | .checkPacket seq => packHeader .checkPacket 0 seq
  | .handleTimer => packHeader .handleTimer 0 0

/-- The bytes after the header: the chunk of a WRITE (R51, R53). -/
def Instr.payload : Instr → List Byte
  | .write _ chunk => chunk
  | .notifyAck _ => []
  | .checkPacket _ => []
  | .handleTimer => []

/-- The four header bytes, byte 0 first (R51, R33). -/
def headerBytes (h : Header) : List Byte :=
  [h.extractLsb' 0 8, h.extractLsb' 8 8, h.extractLsb' 16 8, h.extractLsb' 24 8]

/-- The packet of a command (R53 to R56). Meant for well-formed commands: an operand too wide for its field is cut (log 20). -/
def encode (i : Instr) : List Byte := headerBytes i.header ++ i.payload

/-- The `k` low bytes of a number, least significant first. -/
def littleEndian : Nat → Nat → List Byte
  | 0, _ => []
  | k + 1, w => BitVec.ofNat 8 w :: littleEndian k (w / 256)

/-- The packet whose bits the opcode table numbers from the first byte's least significant bit: the bits above `nbits` are 0,
there is at least a whole header, and a WRITE is as long as its `arg` says, the missing chunk bytes being 0 (log 19). -/
def tableWordPacket (nbits w : Nat) : List Byte :=
  let given := littleEndian (max 4 (nbits / 8)) (w % 2 ^ nbits)
  let h : Header := BitVec.ofNat 32 (w % 2 ^ nbits)
  match Op.ofBits (opField h) with
  | .write => given ++ zeros (4 + argField h - given.length)
  | .notifyAck => given
  | .checkPacket => given
  | .handleTimer => given

/-- The command an opcode-table word decodes to under CFG_REF, the configuration of `State.reset` (log 1, log 19). -/
def decodeTableWord (nbits w : Nat) : Option Instr :=
  match decode Config.ref (tableWordPacket nbits w) with
  | .command i => some i
  | .illegal _ => none

end Sys2Proof
end

