-- ==== Sys2Proof/Machine/SeqArith.lean ====
section
/-! DEFINITION. The pure functions on sequence numbers and time (40_seq_arith.md R70 to R81). None reads or writes state. -/

namespace Sys2Proof.Machine

/-- `seq_succ(s)`: `SEQ_MOD - 1` is followed by 1, never by 0 (R71). -/
def seqSucc (c : Config) (s : Nat) : Nat :=
  if s = c.seqMod - 1 then 1 else s + 1

/-- `seq_advance(s, n)`: `seq_succ` applied `n` times (R72). -/
def seqAdvance (c : Config) (s : Nat) : Nat → Nat
  | 0 => s
  | n + 1 => seqSucc c (seqAdvance c s n)

/-- `seq_dist(a, b)`, the steps from `a` to `b` around the ring (R74); outside its domain any value (U14). -/
def seqDist (c : Config) (a b : Nat) : Nat :=
  if b = 0 ∨ b = a then Config.seqDistOutside a b
  else if a = 0 then b
  else if a < b then b - a
  else b + c.seqN - a

/-- `seq_of_pos(last, i)`: the number of the buffer entry at 0-based position `i` (R77, R15). -/
def seqOfPos (c : Config) (last : Nat) (i : Nat) : Nat := seqAdvance c last (i + 1)

/-- A `TIME_W`-bit time value: a number modulo `2^TIME_W` (R79). -/
def timeWrap (c : Config) (t : Nat) : Nat := t % c.timeMod

/-- `time_add(t, d) = (t + d) mod 2^TIME_W` (R79). -/
def timeAdd (c : Config) (t d : Nat) : Nat := timeWrap c (t + d)

/-- `(a - b) mod 2^TIME_W`, the remainder also when `a < b` (00_scope.md section 5.1). -/
def timeSub (c : Config) (a b : Nat) : Nat := (((a : Int) - (b : Int)) % (c.timeMod : Int)).toNat

/-- `time_reached(now, t)`: the deadline `t` has passed at `now`; equality counts as passed (R80). -/
abbrev timeReached (c : Config) (now t : Nat) : Prop := timeSub c now t < 2 ^ (c.timeW - 1)

/-- `time_remaining(now, t)` for a deadline that has not passed (R81); outside its domain any value (U14). -/
def timeRemaining (c : Config) (now t : Nat) : Nat :=
  if timeReached c now t then Config.timeRemainingOutside now t else timeSub c t now

end Sys2Proof.Machine
end

