-- ==== Sys2Proof/Machine/State.lean ====
section
/-! DEFINITION. The state of one block instance (R10) with what the model adds to run it (the host's inputs, the events of
earlier runs), the output events (R8, R60 to R63), and the state after hardware reset (R25). -/

namespace Sys2Proof.Machine

/-- One valid entry of the unacked send buffer (R13). Its sequence number is not stored (R15). -/
structure Entry where
  /-- The stream id given to the WRITE that made the entry. -/
  sid : Nat
  /-- The length of `data`, a member of `FRAME_SIZES`. -/
  len : Nat
  /-- The trimmed chunk followed by padding zeros up to `len`. -/
  data : List Byte
deriving DecidableEq, Repr

/-- The TX scheduler's state (R11, R12). `TX.count` is the length of `buf`; slots beyond it do not exist (R14, D33, log 11). -/
structure TxState where
  /-- `TX.lastAcked`. -/
  lastAcked : Nat
  /-- `TX.buf[0 .. TX.count - 1]`, oldest first. -/
  buf : List Entry
deriving DecidableEq, Repr

/-- The RX scheduler's state (R16 to R18). -/
structure RxState where
  /-- `RX.lastRecv`. -/
  lastRecv : Nat
  /-- `RX.unacked`. -/
  unacked : Nat
  /-- `RX.nextAck`. -/
  nextAck : Nat
deriving DecidableEq, Repr

/-- The sticky flags (R19). -/
structure Status where
  /-- `STATUS.TXFATAL`. -/
  txFatal : Bool
  /-- `STATUS.BADACK`. -/
  badAck : Bool
  /-- `STATUS.CMDILL`. -/
  cmdIll : Bool
deriving DecidableEq, Repr

/-- The result codes (R60). Codes 3 to 6 are never produced, so they have no constructor. -/
inductive ResultCode where
  | ok | errFull | errFatalOversize | errIllegal
deriving DecidableEq, Repr

/-- An output event (R8). A `frame` holds exactly its `len` bytes (U5). -/
inductive Event where
  /-- `FRAME(sid, seq, len, data)` on the frame port (R61). -/
  | frame (sid : Nat) (seq : Nat) (len : Nat) (data : List Byte)
  /-- `ACK(seq)` on the ack port (R62). -/
  | ack (seq : Nat)
  /-- `SPACE`, a pulse on `tx_space_evt` (R63). -/
  | space
  /-- `RESULT(code, value)` on the result port (R60). -/
  | result (code : ResultCode) (value : Word32)
deriving DecidableEq, Repr

/-- What the outside world does to the block next (R22, R50, R155; log 4 to log 8). -/
inductive Input where
  /-- The host presents a whole packet; `now` is the time input in the cycle of its last byte (R58). -/
  | packet (bytes : List Byte) (now : Nat)
  /-- `rst_n` falls while no command is in progress. -/
  | resetAssert
  /-- `rst_n` falls during the command of this packet, after `k` of its events have been transferred (R155). -/
  | resetDuring (bytes : List Byte) (now : Nat) (k : Nat)
  /-- `rst_n` is released; `now` is `now_at_reset` (R25). -/
  | resetRelease (now : Nat)
deriving DecidableEq, Repr

/-- The state of one block instance. -/
structure State where
  /-- The parameters, constant from reset on (R5, log 1). -/
  cfg : Config
  /-- The TX scheduler (R10). -/
  tx : TxState
  /-- The RX scheduler (R10). -/
  rx : RxState
  /-- The sticky flags (R10, R19). -/
  status : Status
  /-- `rst_n` is 0: the block is in reset, not running (R148, R155). -/
  inReset : Bool
  /-- The `now` value sampled with the last packet (R58). -/
  now : Nat
  /-- What the host presents next, first first; the model's own field (log 4). -/
  inputs : List Input
  /-- The number of commands taken since reset, the model's program counter (R22, log 10). -/
  pc : Nat
  /-- The output trace of the run since reset (R8, R176). -/
  trace : List Event
  /-- The events of runs that a hardware reset ended; the model's own field (R155, log 9). -/
  past : List Event
deriving DecidableEq, Repr

/-- There is no trap and no command that stops the block (R9, R139, R141): the spec's fault conditions are sticky marks in
State after which the machine goes on (R132, R133, log 17). So no fault reason exists, and no step answers a fault: safe. -/
inductive Fault where
deriving DecidableEq, Repr

/-- Why the model does not run. -/
inductive Refusal where
  /-- Raised by `exec` for a command that has no meaning yet; no arm of `exec` does. Safe. -/
  | notModelled (mnemonic : String)
  /-- Raised by `step` for a configuration outside R5 and R6: "a model refuses such a configuration" (R6, U7). Safe. -/
  | illegalConfiguration
deriving DecidableEq, Repr

/-- What a command answers. -/
abbrev Answer := Host.Outcome State Fault Refusal

/-- `TX.count`, the number of valid entries (R12). -/
def State.txCount (s : State) : Nat := s.tx.buf.length

/-- Every event the block has emitted, over all its runs: what the transport and the host have been given. -/
def State.emitted (s : State) : List Event := s.past ++ s.trace

/-- The state when `rst_n` is released (R25, R155), under the configuration `c` and with `now_at_reset = now`. -/
def State.hardwareReset (c : Config) (now : Nat) : State where
  cfg := c
  tx := { lastAcked := 0, buf := [] }
  rx := { lastRecv := 0, unacked := 0, nextAck := timeAdd c now c.ackIntervalMs }
  status := { txFatal := false, badAck := false, cmdIll := false }
  inReset := false
  now := timeWrap c now
  inputs := []
  pc := 0
  trace := []
  past := []

/-- The machine right after reset: R25 under CFG_REF with `now_at_reset = 0` (log 1, log 3). No command is waiting (log 4). -/
def State.reset : State := State.hardwareReset Config.ref 0

end Sys2Proof.Machine
end

