-- ==== Sys2Proof/Machine/Flags.lean ====
section
/-! DEFINITION. The abnormal conditions with their result codes and sticky flags (R130), the derived flag FULL (R19), and the
numeric result codes (R60). There are no condition codes (R19). -/

namespace Sys2Proof.Machine

/-- The abnormal conditions (R130). -/
inductive Condition where
  | txFull | txFatalOversize | illegalCommand | badAck
deriving DecidableEq, Repr

/-- The `res_code` of a condition (R130); BadAck is not reported in the result. -/
def Condition.code : Condition → ResultCode
  | .txFull => .errFull
  | .txFatalOversize => .errFatalOversize
  | .illegalCommand => .errIllegal
  | .badAck => .ok

/-- Set the sticky flag of a condition, if it has one (R9, R130). Nothing here clears a flag (R19, R140). -/
def Condition.mark : Condition → Status → Status
  | .txFull, st => st
  | .txFatalOversize, st => { st with txFatal := true }
  | .illegalCommand, st => { st with cmdIll := true }
  | .badAck, st => { st with badAck := true }

/-- The 3-bit `res_code` (R60). -/
def ResultCode.bits : ResultCode → BitVec 3
  | .ok => 0
  | .errFull => 1
  | .errFatalOversize => 2
  | .errIllegal => 7

/-- `FULL = (TX.count == MAX_UNACKED)` (R19). -/
def State.full (s : State) : Bool := s.txCount == s.cfg.maxUnacked

end Sys2Proof.Machine
end

