-- ==== Sys2Proof/Machine/Operands.lean ====
section
/-! DEFINITION. The chunk operand of WRITE: trimming, rounding and padding (R82, R83, R88). The scalar operands are taken
straight from the header, with no extension, scaling or offset (R57): see Decode.lean. -/

namespace Sys2Proof.Machine

/-- `trim_len(b)`: the length left after removing trailing zero bytes (R82, R87). -/
def trimLen (b : List Byte) : Nat := (b.reverse.dropWhile (fun x => x == 0)).length

/-- `frame_round(n)`: the least member of `FRAME_SIZES` that is at least `n` (R83); outside its domain any value (U14). -/
def frameRound (c : Config) (n : Nat) : Nat :=
  if n = 0 then Config.frameRoundOutside n
  else match c.frameSizes.find? (fun m => decide (n ≤ m)) with
    | some m => m
    | none => Config.frameRoundOutside n

/-- `bytes[0 .. n-1] ++ zeros(L - n)`: the trimmed chunk padded with `0x00` up to the frame length (R85 step 6, R88). -/
def padPayload (chunk : List Byte) (n len : Nat) : List Byte := chunk.take n ++ zeros (len - n)

end Sys2Proof.Machine
end

