-- ==== Sys2Proof/Machine/Ops.lean ====
section
/-! DEFINITION. The shared operations over State: emitting events (R8), raising a condition (R9), the buffer operations of the
TX scheduler and the acknowledgement operations of the RX scheduler. There is no trap entry and no return from one (R139,
R140): `raise` is all that an abnormal condition does. -/

namespace Sys2Proof.Machine

/-- `emit` of several events in order: they go to the end of the trace (R8). -/
def emitAll (evs : List Event) (s : State) : State := { s with trace := s.trace ++ evs }

/-- `emit E` (R8). -/
def emit (e : Event) (s : State) : State := emitAll [e] s

/-- `emit RESULT(0, value)`, the last event of a command (R60). -/
def reply (value : Word32) (s : State) : State := emit (.result .ok value) s

/-- Set the sticky flag of a condition. -/
def markCondition (k : Condition) (s : State) : State := { s with status := k.mark s.status }

/-- `raise <Condition>`: set its sticky flag, emit `RESULT(code, 0)`, change nothing else (R9, R139). -/
def raise (k : Condition) (s : State) : State := emit (.result k.code 0) (markCondition k s)

/-- The `FRAME` event of an entry at position `i` when `TX.lastAcked = last` (R15, R61). -/
def frameOf (c : Config) (last : Nat) (i : Nat) (e : Entry) : Event :=
  .frame e.sid (seqOfPos c last i) e.len e.data

/-- The `FRAME` events of the entries at positions `i`, `i + 1`, ... in ascending order (R93). -/
def framesFrom (c : Config) (last : Nat) : Nat → List Entry → List Event
  | _, [] => []
  | i, e :: es => frameOf c last i e :: framesFrom c last (i + 1) es

/-- `TX.buf[TX.count] <- e; TX.count <- TX.count + 1` (R85 step 7). -/
def appendEntry (e : Entry) (s : State) : State := { s with tx := { s.tx with buf := s.tx.buf ++ [e] } }

/-- Remove the `r` oldest entries; the others move to the front in order (R31, R94). -/
def dropOldest (r : Nat) (s : State) : State := { s with tx := { s.tx with buf := s.tx.buf.drop r } }

/-- `TX.count <- 0` (R91). -/
def clearBuffer (s : State) : State := { s with tx := { s.tx with buf := [] } }

/-- `TX.lastAcked <- seq`. -/
def setLastAcked (seq : Nat) (s : State) : State := { s with tx := { s.tx with lastAcked := seq } }

/-- `RX.lastRecv <- seq; RX.unacked <- RX.unacked + 1` (R110). -/
def countFrame (seq : Nat) (s : State) : State :=
  { s with rx := { s.rx with lastRecv := seq, unacked := s.rx.unacked + 1 } }

/-- `emit ACK(seq); RX.unacked <- 0` (R110, R115). -/
def sendAck (seq : Nat) (s : State) : State :=
  emit (.ack seq) { s with rx := { s.rx with unacked := 0 } }

/-- `RX.nextAck <- time_add(now, ACK_INTERVAL_MS)` (R18, R114, R116). -/
def pushDeadline (s : State) : State :=
  { s with rx := { s.rx with nextAck := timeAdd s.cfg s.now s.cfg.ackIntervalMs } }

/-- A packet has been transferred: the `now` input is sampled (R58) and the model's program counter advances by 1 (R22). -/
def accept (now : Nat) (s : State) : State := { s with now := timeWrap s.cfg now, pc := s.pc + 1 }

end Sys2Proof.Machine
end

