-- ==== Sys2Proof/Machine/Rx.lean ====
section
/-! DEFINITION. The RX scheduler: the meanings of CHECK_PACKET (R110) and HANDLE_TIMER (R115). -/

namespace Sys2Proof.Machine

/-- The batch acknowledgement: once the count has reached MAX_BEFORE_ACK, `ACK(seq)` and the counter to 0 (R113). -/
def batchAck (seq : Nat) (s : State) : State :=
  if s.cfg.maxBeforeAck ≤ s.rx.unacked then sendAck seq s else s

/-- CHECK_PACKET (R110): exactly the successor of `RX.lastRecv` is accepted; anything else changes nothing (R111). -/
def execCheckPacket (seq : Nat) (s : State) : Answer :=
  if seq ≠ seqSucc s.cfg s.rx.lastRecv then .next (reply 0 s)
  else .next (reply 1 (pushDeadline (batchAck seq (countFrame seq s))))

/-- HANDLE_TIMER (R115): acknowledge and return the interval when due, else return the time left, at least 1. -/
def execHandleTimer (s : State) : Answer :=
  if timeReached s.cfg s.now s.rx.nextAck then
    .next (reply (BitVec.ofNat 32 s.cfg.ackIntervalMs) (pushDeadline (sendAck s.rx.lastRecv s)))
  else
    .next (reply (BitVec.ofNat 32 (max 1 (timeRemaining s.cfg s.now s.rx.nextAck))) s)

end Sys2Proof.Machine
end

