-- ==== Sys2Proof/Machine/Tx.lean ====
section
/-! DEFINITION. The TX scheduler: the meanings of WRITE (R85) and NOTIFY_ACK (R91) with its cases A to D (R92 to R95). -/

namespace Sys2Proof.Machine

/-- R85 steps 7 to 9: append the entry, number it, transmit it. -/
def sendFrame (e : Entry) (s : State) : State :=
  emit (frameOf s.cfg s.tx.lastAcked s.txCount e) (appendEntry e s)

/-- WRITE (R85): capacity, all-zero drop, oversize, then append and transmit, in this order (R86, R138). -/
def execWrite (sid : Nat) (chunk : List Byte) (s : State) : Answer :=
  if s.txCount = s.cfg.maxUnacked then .next (raise .txFull s)
  else
    let n := trimLen chunk
    if n = 0 then .next (reply 0 s)
    else if s.cfg.maxFrame < n then .next (raise .txFatalOversize s)
    else
      let len := frameRound s.cfg n
      .next (reply 0 (sendFrame { sid := sid, len := len, data := padPayload chunk n len } s))

/-- NOTIFY_ACK case A, full reset (R92). -/
def fullReset (s : State) : State := emit .space (setLastAcked 0 (clearBuffer s))

/-- NOTIFY_ACK case B, repeated ack: retransmit every entry, oldest first, changing no state (R93). -/
def retransmitAll (s : State) : State := emitAll (framesFrom s.cfg s.tx.lastAcked 0 s.tx.buf) s

/-- NOTIFY_ACK case C, normal ack of the entry at position `idx` (R94). -/
def releaseThrough (seq : Nat) (idx : Nat) (s : State) : State :=
  emit .space (setLastAcked seq (dropOldest (idx + 1) s))

/-- NOTIFY_ACK case D, bad ack: clear the buffer, adopt `seq` if TX_BADACK_ADOPT, set BADACK (R95, R134). -/
def recoverBadAck (seq : Nat) (s : State) : State :=
  emit .space (markCondition .badAck
    (setLastAcked (if s.cfg.txBadackAdopt then seq else s.tx.lastAcked) (clearBuffer s)))

/-- The effect of NOTIFY_ACK before its RESULT: cases A, B, then D or C (R91, R96). -/
def applyAck (seq : Nat) (s : State) : State :=
  if seq = 0 then fullReset s
  else if seq = s.tx.lastAcked then retransmitAll s
  else
    let idx := seqDist s.cfg s.tx.lastAcked seq - 1
    if s.txCount ≤ idx then recoverBadAck seq s else releaseThrough seq idx s

/-- NOTIFY_ACK (R91). The result is always `RESULT(0, 0)`. -/
def execNotifyAck (seq : Nat) (s : State) : Answer := .next (reply 0 (applyAck seq s))

end Sys2Proof.Machine
end

