-- ==== Sys2Proof/Machine/Dispatch.lean ====
section
/-! DEFINITION. The dispatch: one arm for each command, each one direct call of its meaning. -/

namespace Sys2Proof.Machine

def exec (i : Instr) (s : State) : Host.Outcome State Fault Refusal :=
  match i with
  | .write sid chunk => Sys2Proof.Machine.execWrite sid chunk s
  | .notifyAck seq => Sys2Proof.Machine.execNotifyAck seq s
  | .checkPacket seq => Sys2Proof.Machine.execCheckPacket seq s
  | .handleTimer => Sys2Proof.Machine.execHandleTimer s

end Sys2Proof.Machine
end

