-- ==== Sys2Proof/Machine/Inputs.lean ====
section
/-! DEFINITION. What one input of the host does: a command packet is decoded and executed (R39, R59), `rst_n` falls or is
released (R155). Also how bytes on the command port become packets (R50, R51, R58). -/

namespace Sys2Proof.Machine

/-- Decode and execute one packet that has been transferred: an illegal packet raises IllegalCommand (R59, R133, R138). -/
def runPacket (bytes : List Byte) (s : State) : Answer :=
  match decode s.cfg bytes with
  | .command i => exec i s
  | .illegal _ => .next (raise .illegalCommand s)

/-- Take a packet: only a running block transfers it (`cmd_ready` is 0 in reset, R155); otherwise nothing happens (log 6). -/
def takePacket (bytes : List Byte) (now : Nat) (s : State) : Answer :=
  if s.inReset then .next s else runPacket bytes (accept now s)

/-- `rst_n` falls (R155). The registers are not read before the release overwrites them; the model leaves them (log 7). -/
def assertReset (s : State) : State := { s with inReset := true }

/-- The events a cut command had transferred: at most `k`, and never its RESULT, which is the last (R155, log 8). -/
def eventsBeforeCut (k : Nat) (before after : State) : List Event :=
  ((after.trace.drop before.trace.length).dropLast).take k

/-- `rst_n` falls during a command: the events already transferred have happened, the others never happen, no RESULT is
produced, and the command is abandoned (R155). -/
def cutCommand (bytes : List Byte) (now k : Nat) (s : State) : Answer :=
  match takePacket bytes now s with
  | .next t => .next (assertReset (emitAll (eventsBeforeCut k s t) s))
  | .fault r => .fault r
  | .refused r => .refused r

/-- `rst_n` is released: the state of R25 (R155). The inputs to come stay; the events of the ended run go to `past` (log 9).
A running block has no reset to release (log 6). -/
def releaseReset (now : Nat) (s : State) : State :=
  if s.inReset then { State.hardwareReset s.cfg now with inputs := s.inputs, past := s.past ++ s.trace } else s

/-- The effect of one input. -/
def takeInput (inp : Input) (s : State) : Answer :=
  match inp with
  | .packet bytes now => takePacket bytes now s
  | .resetAssert => .next (assertReset s)
  | .resetDuring bytes now k => cutCommand bytes now k s
  | .resetRelease now => .next (releaseReset now s)

/-- One transfer on the command port: `cmd_data`, `cmd_last`, and the `now` input in that cycle (R50). -/
structure Transfer where
  data : Byte
  last : Bool
  now : Nat
deriving DecidableEq, Repr

/-- The packets that a stream of transfers delivers, `got` being the bytes of the packet so far: a packet ends at the byte with
`cmd_last = 1`, and `now` is sampled with that byte (R50, R51, R58). Bytes after the last whole packet are no packet yet. -/
def packetsOfTransfers (got : List Byte) : List Transfer → List Input
  | [] => []
  | t :: ts =>
    if t.last then .packet (got ++ [t.data]) t.now :: packetsOfTransfers [] ts
    else packetsOfTransfers (got ++ [t.data]) ts

end Sys2Proof.Machine
end

