-- ==== Sys2Proof/Machine/Step.lean ====
section
/-! DEFINITION. One step of the machine: take the next input. -/

namespace Sys2Proof.Machine

/-- A configuration outside R5 and R6 is refused (R6, U7, log 2). With nothing presented the block does nothing and keeps its
state (R148, log 5). Otherwise the next input takes effect, to completion (R39). -/
def step (s : State) : Host.Outcome State Fault Refusal :=
  if s.cfg.Legal then
    match s.inputs with
    | [] => .next s
    | inp :: rest => takeInput inp { s with inputs := rest }
  else .refused .illegalConfiguration

/-- The packet of an opcode-table word presented to a running block, with `now` as it stands (log 4, log 19). -/
def State.withFetchWord (s : State) (nbits w : Nat) : State :=
  { s with inReset := false, inputs := .packet (tableWordPacket nbits w) s.now :: s.inputs }

end Sys2Proof.Machine
end

