-- ==== Sys2Proof/Machine/Ports.lean ====
section
/-! DEFINITION. The block as its ports show it: the status wires (R21), `cmd_ready` (R50, R155), each output port's stream of
transfers (R40, R50), and the data wires of a FRAME transfer (R61). All are functions of State; reading one changes nothing (R36). -/

namespace Sys2Proof.Machine

/-- The status wires, valid between commands (R21). -/
structure StatusPorts where
  stTxLastAcked : Nat
  stTxCount : Nat
  stFull : Bool
  stRxLastRecv : Nat
  stRxUnacked : Nat
  stRxNextAck : Nat
  stTxfatal : Bool
  stBadack : Bool
  stCmdill : Bool
deriving DecidableEq, Repr

/-- Each wire carries the current value (R21). -/
def State.statusPorts (s : State) : StatusPorts where
  stTxLastAcked := s.tx.lastAcked
  stTxCount := s.txCount
  stFull := s.full
  stRxLastRecv := s.rx.lastRecv
  stRxUnacked := s.rx.unacked
  stRxNextAck := s.rx.nextAck
  stTxfatal := s.status.txFatal
  stBadack := s.status.badAck
  stCmdill := s.status.cmdIll

/-- `cmd_ready` between commands: 1 exactly when the block is not in reset (R50, R155). -/
def State.cmdReady (s : State) : Bool := !s.inReset

/-- The frame port's transfers, in order (R40, R61). -/
def framePort (evs : List Event) : List Event :=
  evs.filter (fun e => match e with | .frame .. => true | .ack _ => false | .space => false | .result .. => false)

/-- The sequence numbers of the frame port's transfers, in order (R40, R61). -/
def frameSeqs (evs : List Event) : List Nat :=
  evs.filterMap (fun e => match e with | .frame _ n _ _ => some n | .ack _ => none | .space => none | .result .. => none)

/-- The sequence numbers transferred on the ack port, in order (R40, R62). -/
def ackSeqs (evs : List Event) : List Nat :=
  evs.filterMap (fun e => match e with | .ack n => some n | .frame .. => none | .space => none | .result .. => none)

/-- The number of pulses on `tx_space_evt` (R63). -/
def spacePulses (evs : List Event) : Nat :=
  evs.countP (fun e => match e with | .space => true | .frame .. => false | .ack _ => false | .result .. => false)

/-- `res_code` and `res_value` of each transfer on the result port, in order (R50, R60). -/
def resultPort (evs : List Event) : List (BitVec 3 × Word32) :=
  evs.filterMap (fun e => match e with | .result k v => some (k.bits, v) | .frame .. => none | .ack _ => none | .space => none)

/-- `frm_data[8k+7 : 8k]` in the `n`-th transfer on the frame port: byte `k` of `data`; above byte `len - 1` any value (R61). -/
def frmDataByte (n : Nat) (data : List Byte) (k : Nat) : Byte := data.getD k (Config.frameDataAbove n k)

/-- The `MAX_FRAME` bytes on `frm_data` in the `n`-th transfer (R50, R61). -/
def frmData (c : Config) (n : Nat) (data : List Byte) : List Byte := (List.range c.maxFrame).map (frmDataByte n data)

end Sys2Proof.Machine
end

