-- ==== Sys2Proof/Machine/Link.lean ====
section
/-! DEFINITION. Two instances joined by a channel (R27, R46, R146): each has all its state to itself, and the only coupling is
the frames and acknowledgements the transport carries. The channel may lose, delay, duplicate and reorder: any frame or
acknowledgement the peer has ever emitted may arrive now, any number of times, or never. The host of the receiving side
turns each arrival into a command (R46, R137, R144), and may choose a full reset itself (R156). Log 18. -/

namespace Sys2Proof.Machine

/-- Two instances, X and Y. -/
structure Link where
  x : State
  y : State
deriving DecidableEq, Repr

/-- One of the two ends. -/
inductive Side where
  | x | y
deriving DecidableEq, Repr

/-- The other end. -/
def Side.other : Side → Side
  | .x => .y
  | .y => .x

/-- The instance at an end. -/
def Link.at (l : Link) : Side → State
  | .x => l.x
  | .y => l.y

/-- Replace the instance at an end. -/
def Link.set (l : Link) : Side → State → Link
  | .x, s => { l with x := s }
  | .y, s => { l with y := s }

/-- What happens next at one end. DESIGN CHOICE (log 18): these are all the things the hosts do. A host gives CHECK_PACKET only
for an arrived frame, and NOTIFY_ACK only for an arrived acknowledgement or, with 0, for a full reset it chooses itself (R156);
it never makes up another number, and it presents no illegal packet. -/
inductive LinkEvent where
  /-- The host writes a chunk. -/
  | write (side : Side) (sid : Nat) (chunk : List Byte) (now : Nat)
  /-- The `k`-th frame the peer has emitted arrives: CHECK_PACKET with its number. -/
  | frameArrives (side : Side) (k now : Nat)
  /-- The `k`-th acknowledgement the peer has emitted arrives: NOTIFY_ACK with its number. -/
  | ackArrives (side : Side) (k now : Nat)
  /-- The host chooses the protocol's full reset: RESET_ACK, that is NOTIFY_ACK 0 (R65, R156). -/
  | fullReset (side : Side) (now : Nat)
  /-- The timer facility calls: HANDLE_TIMER. -/
  | timer (side : Side) (now : Nat)
  /-- A whole hardware reset pulse. -/
  | reset (side : Side) (now : Nat)
deriving DecidableEq, Repr

/-- The host at one end issues a command. It issues well-formed commands only; one whose operands do not fit the fields of its
instance is not issued (log 18). -/
def Link.command (l : Link) (side : Side) (i : Instr) (now : Nat) : Host.Outcome Link Fault Refusal :=
  if i.wf (l.at side).cfg then
    match takePacket (encode i) now (l.at side) with
    | .next t => .next (l.set side t)
    | .fault r => .fault r
    | .refused r => .refused r
  else .next l

/-- One step of the pair. An arrival of something never emitted does not happen, and changes nothing. -/
def Link.step (l : Link) (e : LinkEvent) : Host.Outcome Link Fault Refusal :=
  match e with
  | .write side sid chunk now => l.command side (.write sid chunk) now
  | .frameArrives side k now =>
    match (frameSeqs (l.at side.other).emitted)[k]? with
    | some n => l.command side (.checkPacket n) now
    | none => .next l
  | .ackArrives side k now =>
    match (ackSeqs (l.at side.other).emitted)[k]? with
    | some n => l.command side (.notifyAck n) now
    | none => .next l
  | .fullReset side now => l.command side .resetAck now
  | .timer side now => l.command side .handleTimer now
  | .reset side now => .next (l.set side (releaseReset now (assertReset (l.at side))))

/-- A pair of instances right after reset, each with its own legal configuration and `now_at_reset`. -/
def Link.start (cx cy : Config) (nowX nowY : Nat) : Link where
  x := State.hardwareReset cx nowX
  y := State.hardwareReset cy nowY

end Sys2Proof.Machine
end

