-- ==== Sys2Proof/Machine/PayloadStore.lean ====
section
/-! DEFINITION. The byte view of the payload store (R30, R31, 00_scope.md section 5.3): byte `k` of the entry in slot `i` is at
address `i * MAX_FRAME + k`. The store is the `data` of the buffer entries; this file computes the addressed view of it, as
a list of cells in one canonical form, with MemRead and MemWrite. No command carries an address (R30). -/

namespace Sys2Proof.Machine

/-- Bytes by address, the addresses strictly rising. An address that is not listed holds no defined byte: its contents are
unspecified and no rule reads them (R14, U4, log 11). -/
abbrev Memory := List Host.Cell

/-- The canonical form: addresses strictly rising. -/
abbrev Memory.wf (m : Memory) : Prop := m.Pairwise (fun p q => p.1 < q.1)

/-- The byte at an address, if it is a byte of a valid entry. -/
def Memory.read (m : Memory) (a : Nat) : Option Byte :=
  match m with
  | [] => none
  | (b, v) :: rest => if a = b then some v else Memory.read rest a

/-- Write one byte, keeping the canonical form. -/
def Memory.write (m : Memory) (a : Nat) (v : Byte) : Memory :=
  match m with
  | [] => [(a, v)]
  | (b, w) :: rest =>
    if a < b then (a, v) :: (b, w) :: rest
    else if a = b then (a, v) :: rest
    else (b, w) :: Memory.write rest a v

/-- `MemRead(addr, n)` (00_scope.md section 5.3): defined when each byte is a byte of a valid entry. -/
def memRead (m : Memory) (addr : Nat) : Nat → Option (List Byte)
  | 0 => some []
  | n + 1 => do
    let b ← m.read addr
    let bs ← memRead m (addr + 1) n
    pure (b :: bs)

/-- `MemWrite(addr, n, v)` with `n` the length of `v` (00_scope.md section 5.3). -/
def memWrite (m : Memory) (addr : Nat) : List Byte → Memory
  | [] => m
  | b :: bs => memWrite (m.write addr b) (addr + 1) bs

/-- The address of byte `k` of slot `i` (R31). -/
def slotAddr (c : Config) (i k : Nat) : Nat := i * c.maxFrame + k

/-- The cells of a byte string stored from an address on. -/
def cellsAt (addr : Nat) : List Byte → Memory
  | [] => []
  | b :: bs => (addr, b) :: cellsAt (addr + 1) bs

/-- The cells of the entries in slots `i`, `i + 1`, ... (R31). -/
def cellsFrom (c : Config) : Nat → List Entry → Memory
  | _, [] => []
  | i, e :: es => cellsAt (slotAddr c i 0) e.data ++ cellsFrom c (i + 1) es

/-- The payload store (R31). -/
def State.payloadStore (s : State) : Memory := cellsFrom s.cfg 0 s.tx.buf

/-- The byte of the payload store at an address. -/
def State.storeByte (s : State) (a : Nat) : Option Byte := s.payloadStore.read a

end Sys2Proof.Machine
end

