-- ==== Sys2Proof/Safety.lean ====
section
/-! DEFINITION. What claims are stated in: the invariants of R24 with the widths of R10, the fault marks of R19, runs (R176). -/

namespace Sys2Proof.Machine

/-- An entry as R13 and R24 item 2 have it: the tag fits its field, the length is a frame size and the length of the data, and
the data is a chunk that ends in a non-zero byte followed by padding zeros up to the size its length rounds to. -/
abbrev Entry.Legal (c : Config) (e : Entry) : Prop :=
  e.sid < 2 ^ c.streamIdW ∧ e.len ∈ c.frameSizes ∧ e.data.length = e.len ∧
  ∃ n, n ≤ e.len ∧ 1 ≤ n ∧ e.data.getD (n - 1) 0 ≠ 0 ∧ (∀ b ∈ e.data.drop n, b = 0) ∧ e.len = frameRound c n

/-- The invariants of R24 items 1, 2 and 4, with every register inside its width (R10) and the configuration legal (R5, R6).
R24 items 3 and 5 are stated about it: see the certificates. -/
structure State.Inv (s : State) : Prop where
  cfg : s.cfg.Legal
  lastAcked : s.tx.lastAcked < s.cfg.seqMod
  count : s.txCount ≤ s.cfg.maxUnacked
  entries : ∀ e ∈ s.tx.buf, e.Legal s.cfg
  lastRecv : s.rx.lastRecv < s.cfg.seqMod
  unacked : s.rx.unacked ≤ s.cfg.maxBeforeAck - 1
  nextAck : s.rx.nextAck < s.cfg.timeMod
  now : s.now < s.cfg.timeMod

/-- A fault mark is set: no claim should be made about a run that sets one (R19, R132, R133, R176). -/
def State.faulted (s : State) : Bool := s.status.txFatal || s.status.cmdIll

/-- The entries with the sequence numbers their positions give them (R15). -/
def State.numbered (s : State) : List (Nat × Entry) :=
  s.tx.buf.mapIdx (fun i e => (seqOfPos s.cfg s.tx.lastAcked i, e))

/-- The number `n` steps after `s` on the ring, for `n <= SEQ_N`: one conditional correction, the form of R73 that hardware uses
and the source's "skip 0 exactly once across the wrap". Statements give sequence numbers in this form. -/
def ringAfter (c : Config) (s : Nat) (n : Nat) : Nat :=
  if s + n ≤ c.seqMod - 1 then s + n else s + n - c.seqMod + 1

/-- The states some run reaches: from any hardware reset of a legal configuration with any inputs, by steps (R176). -/
inductive State.Reachable : State → Prop where
  | start (c : Config) (now : Nat) (inputs : List Input) (h : c.Legal) :
      State.Reachable { State.hardwareReset c now with inputs := inputs }
  | step (s t : State) (h : State.Reachable s) (hst : Machine.step s = .next t) : State.Reachable t

/-- What holds of two linked instances: each keeps its invariant; the numbers of all frames it ever emitted are numbers of its
ring, 1 to SEQ_MOD - 1 (R70); and what it stands at as a receiver, and every acknowledgement it ever emitted, is 0 or a number its peer has sent. -/
structure Link.Inv (l : Link) : Prop where
  state : ∀ d, (l.at d).Inv
  frames : ∀ d, ∀ n ∈ frameSeqs (l.at d).emitted, n ≠ 0 ∧ n < (l.at d).cfg.seqMod
  lastRecv : ∀ d, (l.at d).rx.lastRecv = 0 ∨ (l.at d).rx.lastRecv ∈ frameSeqs (l.at d.other).emitted
  acks : ∀ d, ∀ n ∈ ackSeqs (l.at d).emitted, n = 0 ∨ n ∈ frameSeqs (l.at d.other).emitted

/-- A receiver is given, in order, frames with these sequence numbers: a CHECK_PACKET for each (R46, R110). -/
def receiveAll (seqs : List Nat) (s : State) : Answer :=
  match seqs with
  | [] => .next s
  | n :: ns =>
    match exec (.checkPacket n) s with
    | .next t => receiveAll ns t
    | .fault r => .fault r
    | .refused r => .refused r

end Sys2Proof.Machine
end

