-- ==== Sys2Proof/Certificates/Slice0/Obligations.lean ====
section
/-! DEFINITION. The statements for the provers. Every statement holds for every legal configuration, so none rests on the
configuration of `State.reset` (log 1); `R<n>` are the rules of spec/. -/

open Sys2Proof Sys2Proof.Machine

/-! ## Encoding (30_encoding.md) -/

/-- R53 to R57: every well-formed command is read back from its packet with every operand. -/
def Obligations.DecodeOfEncodeIsTheCommand : Prop :=
  ∀ (c : Config) (i : Instr), c.Legal → i.Legal c → decode c (encode i) = .command i

/-- R53 to R57, R59: a packet that decodes is the encoding of its command, which is well formed; so no two packets stand for
one command, and a packet stands for exactly one. -/
def Obligations.LegalPacketIsTheEncodingOfItsCommand : Prop :=
  ∀ (c : Config) (p : List Byte) (i : Instr), decode c p = .command i → i.Legal c ∧ encode i = p

/-- R59, the five conditions on the packet's bytes, with the header of R51 and its bit fields written out. -/
def Obligations.PacketIsIllegalExactlyByTheFiveConditions : Prop :=
  ∀ (c : Config) (p : List Byte),
    let h := (p.getD 0 0).toNat + 256 * (p.getD 1 0).toNat + 65536 * (p.getD 2 0).toNat + 16777216 * (p.getD 3 0).toNat
    let op := h / 2 ^ 30
    let rsv := h / 2 ^ 24 % 2 ^ 6
    let sid := h / 2 ^ 16 % 2 ^ 8
    let arg := h % 2 ^ 16
    (∃ why, decode c p = .illegal why) ↔
      p.length < 4 ∨
      rsv ≠ 0 ∨
      (op = 0 ∧ (sid / 2 ^ c.streamIdW ≠ 0 ∨ c.inMax < arg ∨ p.length ≠ 4 + arg)) ∨
      ((op = 1 ∨ op = 2) ∧ (sid ≠ 0 ∨ arg / 2 ^ c.seqW ≠ 0 ∨ p.length ≠ 4)) ∨
      (op = 3 ∧ (sid ≠ 0 ∨ arg ≠ 0 ∨ p.length ≠ 4))

/-- R67, the worked encodings: the packets of the table decode to the commands it gives, or are illegal. -/
def Obligations.WorkedPacketsDecodeAsTabled : Prop :=
  decode Config.ref [0x04, 0x00, 0x01, 0x00, 0x48, 0x69, 0x00, 0x00] = .command (.write 1 [0x48, 0x69, 0x00, 0x00]) ∧
  decode Config.ref [0x00, 0x00, 0x00, 0x00] = .command (.write 0 []) ∧
  decode Config.ref [0x03, 0x00, 0x00, 0x40] = .command (.notifyAck 3) ∧
  decode Config.ref [0xFF, 0xFF, 0x00, 0x40] = .command (.notifyAck 65535) ∧
  decode Config.ref [0x01, 0x00, 0x00, 0x80] = .command (.checkPacket 1) ∧
  decode Config.ref [0x00, 0x00, 0x00, 0xC0] = .command .handleTimer ∧
  (∃ why, decode Config.ref [0x00, 0x00, 0x00, 0x01] = .illegal why) ∧
  (∃ why, decode Config.ref [0x00, 0x00, 0x00] = .illegal why) ∧
  (∃ why, decode Config.ref [0x02, 0x00, 0x00, 0x00, 0x41] = .illegal why) ∧
  (∃ why, decode Config.small [0x08, 0x00, 0x00, 0x40] = .illegal why)

/-! ## Steps (R22, R39, R58, R133, R148, R155) -/

/-- A packet that decodes to a command is executed by one step, with `now` sampled (R58) and the program counter one further
(R22), and the packet gone from the host's list (log 4). -/
def Obligations.StepRunsTheDecodedCommand : Prop :=
  ∀ (s : State) (p : List Byte) (now : Nat) (rest : List Input) (i : Instr),
    s.cfg.Legal → s.inReset = false → s.inputs = .packet p now :: rest → decode s.cfg p = .command i →
    step s = exec i { s with inputs := rest, now := now % 2 ^ s.cfg.timeW, pc := s.pc + 1 }

/-- R133: a packet that is none of the four commands sets CMDILL, reports code 7 and changes nothing else; the state after it
carries a fault mark. Its `now` is sampled as every packet's is (R58). That the packet leaves the host's list (log 4) and that an
illegal packet counts in the program counter (R22, log 10) is the model's choice. -/
def Obligations.IllegalPacketSetsCmdillAndReports7 : Prop :=
  ∀ (s : State) (p : List Byte) (now : Nat) (rest : List Input),
    s.cfg.Legal → s.inReset = false → s.inputs = .packet p now :: rest → (∀ i, decode s.cfg p ≠ .command i) →
    ResultCode.errIllegal.bits = 7 ∧
    step s = .next { s with
      inputs := rest, now := now % 2 ^ s.cfg.timeW, pc := s.pc + 1
      status := { s.status with cmdIll := true }
      trace := s.trace ++ [.result .errIllegal 0] } ∧
    ∀ t, step s = .next t → t.faulted = true

/-- R148: with nothing presented the block keeps its state. R155: in reset it takes no packet. -/
def Obligations.NothingHappensWithoutAnAcceptedCommand : Prop :=
  ∀ s : State, s.cfg.Legal →
    (s.inputs = [] → step s = .next s) ∧
    (∀ p now rest, s.inReset = true → s.inputs = .packet p now :: rest → step s = .next { s with inputs := rest })

/-- R6, U7: exactly the configurations outside R5 and R6 are refused, and no step ends in any other refusal or in a fault. -/
def Obligations.StepStopsOnlyOnAnIllegalConfiguration : Prop :=
  ∀ s : State,
    (¬ s.cfg.Legal → step s = .refused .illegalConfiguration) ∧ (s.cfg.Legal → ∃ t, step s = .next t)

/-- R8, R60: the events of an accepted packet go to the end of the trace, with exactly one RESULT, the last of them. That the
program counter (R22) counts an illegal packet too is the model's choice (log 10). -/
def Obligations.EveryAcceptedPacketGivesOneResultLast : Prop :=
  ∀ (s t : State) (p : List Byte) (now : Nat),
    s.inReset = false → takePacket p now s = .next t →
    ∃ evs code value, t.trace = s.trace ++ evs ++ [.result code value] ∧ resultPort evs = [] ∧ t.pc = s.pc + 1

/-! ## WRITE (41_tx_scheduler.md R85 to R90) -/

/-- R131: a WRITE to a full buffer reports code 1 and changes no state, whatever the chunk. -/
def Obligations.WriteToFullBufferReports1 : Prop :=
  ∀ (s : State) (sid : Nat) (chunk : List Byte),
    s.txCount = s.cfg.maxUnacked →
    ResultCode.errFull.bits = 1 ∧
    exec (.write sid chunk) s = .next { s with trace := s.trace ++ [.result .errFull 0] }

/-- R87: an empty or all-zero chunk is dropped with OK: no entry, no frame. -/
def Obligations.WriteOfAllZeroChunkIsDropped : Prop :=
  ∀ (s : State) (sid : Nat) (k : Nat),
    s.txCount ≠ s.cfg.maxUnacked →
    exec (.write sid (zeros k)) s = .next { s with trace := s.trace ++ [.result .ok 0] }

/-- R132: a WRITE whose trimmed length exceeds MAX_FRAME sets TXFATAL, reports code 2, and changes nothing else; the state after
it carries a fault mark, and the block goes on. -/
def Obligations.WriteOfOversizeChunkSetsTxfatal : Prop :=
  ∀ (s : State) (sid : Nat) (body : List Byte) (last : Byte) (k : Nat),
    s.txCount ≠ s.cfg.maxUnacked → last ≠ 0 → s.cfg.maxFrame < body.length + 1 →
    ResultCode.errFatalOversize.bits = 2 ∧
    exec (.write sid (body ++ [last] ++ zeros k)) s = .next { s with
      status := { s.status with txFatal := true }
      trace := s.trace ++ [.result .errFatalOversize 0] } ∧
    ∀ t, exec (.write sid (body ++ [last] ++ zeros k)) s = .next t → t.faulted = true

/-- R85 steps 5 to 9, R88, R90: a chunk that ends in a non-zero byte and any number of zeros is stored and sent as the bytes up
to that byte, padded with zeros to the least frame size that holds them, under the next number of the ring. -/
def Obligations.WriteSendsTheTrimmedPaddedFrame : Prop :=
  ∀ (s : State) (sid : Nat) (body : List Byte) (last : Byte) (k len : Nat),
    s.cfg.Legal → s.tx.lastAcked < s.cfg.seqMod → s.txCount < s.cfg.maxUnacked → last ≠ 0 →
    len ∈ s.cfg.frameSizes → body.length + 1 ≤ len →
    (∀ m ∈ s.cfg.frameSizes, body.length + 1 ≤ m → len ≤ m) →
    let data := body ++ [last] ++ zeros (len - (body.length + 1))
    exec (.write sid (body ++ [last] ++ zeros k)) s = .next { s with
      tx := { s.tx with buf := s.tx.buf ++ [{ sid := sid, len := len, data := data }] }
      trace := s.trace ++
        [.frame sid (ringAfter s.cfg s.tx.lastAcked (s.txCount + 1)) len data, .result .ok 0] }

/-- R86, R163: trailing zeros of the chunk make no difference to anything. -/
def Obligations.TrailingZerosOfAChunkMakeNoDifference : Prop :=
  ∀ (s : State) (sid : Nat) (chunk : List Byte) (k : Nat),
    exec (.write sid (chunk ++ zeros k)) s = exec (.write sid chunk) s

/-! ## NOTIFY_ACK (41_tx_scheduler.md R91 to R98) -/

/-- R92: NOTIFY_ACK 0 clears the buffer and `TX.lastAcked` in every state, and signals space. -/
def Obligations.AckOfZeroIsTheFullReset : Prop :=
  ∀ s : State,
    exec (.notifyAck 0) s = .next { s with
      tx := { lastAcked := 0, buf := [] }
      trace := s.trace ++ [.space, .result .ok 0] }

/-- R93: a repeated ack sends every pending entry again, oldest first, with its number, and changes no state. -/
def Obligations.RepeatedAckRetransmitsEveryEntry : Prop :=
  ∀ s : State, s.cfg.Legal → s.tx.lastAcked < s.cfg.seqMod → s.txCount ≤ s.cfg.maxUnacked → s.tx.lastAcked ≠ 0 →
    exec (.notifyAck s.tx.lastAcked) s = .next { s with
      trace := s.trace ++
        s.tx.buf.mapIdx (fun i e => .frame e.sid (ringAfter s.cfg s.tx.lastAcked (i + 1)) e.len e.data) ++
        [.result .ok 0] }

/-- R94: the number of the entry at position `idx` removes that entry and every older one. For `TX.lastAcked = 0` too. -/
def Obligations.NormalAckReleasesThroughItsEntry : Prop :=
  ∀ (s : State) (idx : Nat), s.cfg.Legal → s.tx.lastAcked < s.cfg.seqMod → s.txCount ≤ s.cfg.maxUnacked →
    idx < s.txCount →
    let seq := ringAfter s.cfg s.tx.lastAcked (idx + 1)
    exec (.notifyAck seq) s = .next { s with
      tx := { lastAcked := seq, buf := s.tx.buf.drop (idx + 1) }
      trace := s.trace ++ [.space, .result .ok 0] }

/-- R95: a number that is not 0, not `TX.lastAcked` and not that of any entry clears the buffer, is adopted when
TX_BADACK_ADOPT is 1, sets BADACK, and signals space. -/
def Obligations.BadAckClearsTheBuffer : Prop :=
  ∀ (s : State) (seq : Nat), s.cfg.Legal → s.tx.lastAcked < s.cfg.seqMod → s.txCount ≤ s.cfg.maxUnacked →
    seq < s.cfg.seqMod → seq ≠ 0 → seq ≠ s.tx.lastAcked →
    (∀ i, i < s.txCount → seq ≠ ringAfter s.cfg s.tx.lastAcked (i + 1)) →
    exec (.notifyAck seq) s = .next { s with
      tx := { lastAcked := if s.cfg.txBadackAdopt then seq else s.tx.lastAcked, buf := [] }
      status := { s.status with badAck := true }
      trace := s.trace ++ [.space, .result .ok 0] }

/-- R15, R97 over every step: an entry keeps its number from the WRITE that made it until its removal. A step removes some of the
oldest entries, or adds one at the end, and the entries it keeps have the numbers they had. That the entries stand when `rst_n`
falls, until the release, is the model's choice (log 7). -/
def Obligations.EntriesKeepTheirNumbersAcrossEveryStep : Prop :=
  ∀ s t : State, s.Inv → step s = .next t →
    (∃ r, t.numbered = s.numbered.drop r) ∨ (∃ new, t.numbered = s.numbered ++ [new])

/-! ## CHECK_PACKET (42_rx_scheduler.md R110 to R114) -/

/-- R110: exactly the successor of `RX.lastRecv` is accepted, counted, acknowledged when the count reaches MAX_BEFORE_ACK, and
pushes the deadline; any other number is dropped and changes nothing. -/
def Obligations.CheckPacketAcceptsExactlyTheSuccessor : Prop :=
  ∀ (s : State) (seq : Nat),
    let expected := if s.rx.lastRecv = s.cfg.seqMod - 1 then 1 else s.rx.lastRecv + 1
    let batch := s.cfg.maxBeforeAck ≤ s.rx.unacked + 1
    (seq = expected → exec (.checkPacket seq) s = .next { s with
      rx := {
        lastRecv := seq
        unacked := if batch then 0 else s.rx.unacked + 1
        nextAck := (s.now + s.cfg.ackIntervalMs) % 2 ^ s.cfg.timeW }
      trace := s.trace ++ (if batch then [.ack seq] else []) ++ [.result .ok 1] }) ∧
    (seq ≠ expected → exec (.checkPacket seq) s = .next { s with trace := s.trace ++ [.result .ok 0] })

/-- R112: CHECK_PACKET 0 is rejected in every state. -/
def Obligations.CheckPacketOfZeroIsAlwaysRejected : Prop :=
  ∀ s : State, exec (.checkPacket 0) s = .next { s with trace := s.trace ++ [.result .ok 0] }

/-- R113: given frames in order, the receiver acknowledges once, with the last number, after as many acceptances as complete the
batch, and its counter is then 0. -/
def Obligations.BatchAckAfterMaxBeforeAckFrames : Prop :=
  ∀ s : State, s.Inv →
    let k := s.cfg.maxBeforeAck - s.rx.unacked
    ∃ t evs, receiveAll ((List.range k).map (fun j => seqAdvance s.cfg s.rx.lastRecv (j + 1))) s = .next t ∧
      t.trace = s.trace ++ evs ∧ t.rx.unacked = 0 ∧ ackSeqs evs = [seqAdvance s.cfg s.rx.lastRecv k]

/-! ## HANDLE_TIMER (42_rx_scheduler.md R115 to R118) -/

/-- R115, R116: at the deadline or up to `2^(TIME_W-1) - 1` milliseconds after it, one `ACK` of `RX.lastRecv`, the counter to 0,
the next deadline counted from `now`, and the full interval as the delay. -/
def Obligations.HandleTimerWhenDueAcksOnceAndRestarts : Prop :=
  ∀ (s : State) (late : Nat), s.cfg.Legal → s.rx.nextAck < 2 ^ s.cfg.timeW → late < 2 ^ (s.cfg.timeW - 1) →
    s.now = (s.rx.nextAck + late) % 2 ^ s.cfg.timeW →
    exec .handleTimer s = .next { s with
      rx := {
        lastRecv := s.rx.lastRecv
        unacked := 0
        nextAck := (s.now + s.cfg.ackIntervalMs) % 2 ^ s.cfg.timeW }
      trace := s.trace ++ [.ack s.rx.lastRecv, .result .ok (BitVec.ofNat 32 s.cfg.ackIntervalMs)] }

/-- R115, R117: with the deadline 1 to `2^(TIME_W-1)` milliseconds ahead, that distance is the delay and nothing changes. -/
def Obligations.HandleTimerBeforeDeadlineReportsTheDistance : Prop :=
  ∀ (s : State) (ahead : Nat), s.cfg.Legal → s.now < 2 ^ s.cfg.timeW → 1 ≤ ahead → ahead ≤ 2 ^ (s.cfg.timeW - 1) →
    s.rx.nextAck = (s.now + ahead) % 2 ^ s.cfg.timeW →
    exec .handleTimer s = .next { s with trace := s.trace ++ [.result .ok (BitVec.ofNat 32 ahead)] }

/-- R60, R117 under the premise of R170: with the deadline set one interval after some `t0` and `now` between `t0` and
`2^(TIME_W-1)` milliseconds after the deadline, the reported delay is at least 1 and at most ACK_INTERVAL_MS. -/
def Obligations.HandleTimerDelayIsBetweenOneAndTheInterval : Prop :=
  ∀ (s : State) (t0 d : Nat), s.cfg.Legal → d < s.cfg.ackIntervalMs + 2 ^ (s.cfg.timeW - 1) →
    s.rx.nextAck = (t0 + s.cfg.ackIntervalMs) % 2 ^ s.cfg.timeW → s.now = (t0 + d) % 2 ^ s.cfg.timeW →
    ∃ t evs value, exec .handleTimer s = .next t ∧ t.trace = s.trace ++ evs ++ [.result .ok value] ∧
      1 ≤ value.toNat ∧ value.toNat ≤ s.cfg.ackIntervalMs

/-- R120, R162: a host that polls again exactly after the reported delay, with no frame accepted between, gets the keepalive
acknowledgement then. -/
def Obligations.PollAfterTheReportedDelayGetsTheAck : Prop :=
  ∀ s : State, s.cfg.Legal → s.now < 2 ^ s.cfg.timeW → s.rx.nextAck < 2 ^ s.cfg.timeW →
    ∃ t evs value u evs', exec .handleTimer s = .next t ∧ t.trace = s.trace ++ evs ++ [.result .ok value] ∧
      exec .handleTimer { t with now := (s.now + value.toNat) % 2 ^ s.cfg.timeW } = .next u ∧
      u.trace = t.trace ++ evs' ∧ ackSeqs evs' = [s.rx.lastRecv]

/-! ## Arithmetic (40_seq_arith.md) -/

/-- R73: the closed forms of seq_advance, and its one-correction form. -/
def Obligations.SeqAdvanceClosedForms : Prop :=
  ∀ (c : Config) (s n : Nat), c.Legal → s < c.seqMod →
    (1 ≤ n → seqAdvance c 0 n = (n - 1) % c.seqN + 1) ∧
    (1 ≤ n → 1 ≤ s → seqAdvance c s n = (s - 1 + n) % c.seqN + 1) ∧
    (n ≤ c.seqN →
      seqAdvance c s n = if s + n ≤ c.seqMod - 1 then s + n else s + n - c.seqMod + 1)

/-- R74: seq_dist is the least number of steps, at least one, from `a` to `b`, and lies in the range the rule gives. -/
def Obligations.SeqDistIsTheLeastDistance : Prop :=
  ∀ (c : Config) (a b : Nat), c.Legal → a < c.seqMod → b < c.seqMod → b ≠ 0 → b ≠ a →
    (a = 0 → seqDist c a b = b) ∧ (1 ≤ a → a < b → seqDist c a b = b - a) ∧
    (1 ≤ a → b < a → seqDist c a b = b + c.seqN - a) ∧
    1 ≤ seqDist c a b ∧ (a = 0 → seqDist c a b ≤ c.seqN) ∧ (1 ≤ a → seqDist c a b ≤ c.seqN - 1) ∧
    seqAdvance c a (seqDist c a b) = b ∧
    ∀ d, 1 ≤ d → seqAdvance c a d = b → seqDist c a b ≤ d

/-- R75: the hardware form, a wrapping subtraction with the reserved 0 taken out once. -/
def Obligations.SeqDistHardwareForm : Prop :=
  ∀ (c : Config) (a b : Nat), c.Legal → a < c.seqMod → b < c.seqMod → b ≠ 0 → b ≠ a →
    let t := (c.seqMod + b - a) % c.seqMod
    (a < b → seqDist c a b = t) ∧ (b < a → seqDist c a b = t - 1)

/-- R76: the inverse laws of seq_advance and seq_dist. -/
def Obligations.SeqAdvanceAndSeqDistAreInverse : Prop :=
  ∀ (c : Config) (a : Nat), c.Legal → a < c.seqMod →
    (∀ b, 1 ≤ b → b < c.seqMod → b ≠ a → seqAdvance c a (seqDist c a b) = b) ∧
    (∀ d, 1 ≤ d → d ≤ c.seqN - 1 → seqDist c a (seqAdvance c a d) = d) ∧
    (a = 0 → seqDist c a (seqAdvance c a c.seqN) = c.seqN) ∧
    (∀ m n, seqAdvance c (seqAdvance c a m) n = seqAdvance c a (m + n))

/-- R78: how many positions have numbers that differ from each other and from `last`. -/
def Obligations.PositionsHaveDistinctNumbers : Prop :=
  ∀ (c : Config) (last : Nat) (k : Nat), c.Legal → last < c.seqMod →
    (1 ≤ last → ((last :: (List.range k).map (seqOfPos c last)).Nodup ↔ k ≤ c.seqN - 1)) ∧
    (last = 0 → k ≤ c.seqN → (List.range k).map (seqOfPos c last) = (List.range k).map (fun i => i + 1))

/-- R80, R81: `d` milliseconds after a deadline it has passed exactly while `d < 2^(TIME_W-1)`; otherwise the time remaining is
the distance forward, in `1 .. 2^(TIME_W-1)`. -/
def Obligations.DeadlineWindowAndTimeRemaining : Prop :=
  ∀ (c : Config) (t d : Nat), c.Legal → t < 2 ^ c.timeW → d < 2 ^ c.timeW →
    let now := (t + d) % 2 ^ c.timeW
    (timeReached c now t ↔ d < 2 ^ (c.timeW - 1)) ∧
    (¬ timeReached c now t → timeRemaining c now t = 2 ^ c.timeW - d ∧
      1 ≤ timeRemaining c now t ∧ timeRemaining c now t ≤ 2 ^ (c.timeW - 1))

/-- R82: everything from trim_len on is zero, and the byte before it is not. -/
def Obligations.TrimLenRemovesExactlyTheTrailingZeros : Prop :=
  ∀ b : List Byte,
    trimLen b ≤ b.length ∧ (∀ k, trimLen b ≤ k → k < b.length → b[k]? = some 0) ∧
    (trimLen b ≠ 0 → ∃ x, b[trimLen b - 1]? = some x ∧ x ≠ 0)

/-- R83: frame_round is the least frame size that is at least `n`. -/
def Obligations.FrameRoundIsTheLeastFrameSize : Prop :=
  ∀ (c : Config) (n : Nat), c.Legal → 1 ≤ n → n ≤ c.maxFrame →
    frameRound c n ∈ c.frameSizes ∧ n ≤ frameRound c n ∧ ∀ m ∈ c.frameSizes, n ≤ m → frameRound c n ≤ m

/-! ## Reset (10_state.md R25, 70_reset_and_hazards.md R155) -/

/-- R25, R155: what the release of reset leaves. The events of the ended run move to `past`, the inputs to come stay and the
program counter is 0: the model's choice (log 4, log 9, log 10). -/
def Obligations.ReleaseOfResetLeavesTheResetValues : Prop :=
  ∀ (s : State) (now : Nat) (rest : List Input),
    s.cfg.Legal → s.inReset = true → s.inputs = .resetRelease now :: rest →
    step s = .next {
      cfg := s.cfg
      tx := { lastAcked := 0, buf := [] }
      rx := { lastRecv := 0, unacked := 0, nextAck := (now + s.cfg.ackIntervalMs) % 2 ^ s.cfg.timeW }
      status := { txFatal := false, badAck := false, cmdIll := false }
      inReset := false
      now := now % 2 ^ s.cfg.timeW
      inputs := rest
      pc := 0
      trace := []
      past := s.past ++ s.trace }

/-- R155: `rst_n` falls. With no command in progress nothing is emitted and the block is in reset. A command cut by reset has
emitted some first events of its, never its RESULT. That the registers stand as before until the release is the model's choice
(log 7), and so are a second fall, which has no effect (log 6), and which events count as transferred (log 8, log 16). -/
def Obligations.CutCommandKeepsOnlyTheEventsAlreadyTransferred : Prop :=
  ∀ (s : State) (rest : List Input), s.cfg.Legal →
    (s.inputs = .resetAssert :: rest → step s = .next { s with inputs := rest, inReset := true }) ∧
    (∀ p now k, s.inReset = true → s.inputs = .resetDuring p now k :: rest → step s = .next { s with inputs := rest }) ∧
    (∀ p now k, s.inReset = false → s.inputs = .resetDuring p now k :: rest →
      ∃ evs more code value u,
        takePacket p now { s with inputs := rest } = .next u ∧ u.trace = s.trace ++ evs ++ more ++ [.result code value] ∧
        resultPort evs = [] ∧ resultPort more = [] ∧ (evs.length = k ∨ evs.length < k ∧ more = []) ∧
        step s = .next { s with inputs := rest, inReset := true, trace := s.trace ++ evs })

/-! ## Invariants (10_state.md R24) -/

/-- R24, R25: the invariant holds after every reset, and so at `State.reset`. -/
def Obligations.ResetMeetsTheInvariant : Prop :=
  (∀ (c : Config) (now : Nat) (inputs : List Input), c.Legal →
    State.Inv { State.hardwareReset c now with inputs := inputs }) ∧ State.reset.Inv

/-- R24 items 1, 2 and 4, with every register inside its width (R10): every step keeps it. While `rst_n` is 0 that is the model's choice (log 7). -/
def Obligations.EveryStepKeepsTheInvariant : Prop :=
  ∀ s t : State, s.Inv → step s = .next t → t.Inv

/-- R24 item 3: the numbers of the valid entries are non-zero, pairwise different, and different from `TX.lastAcked`. -/
def Obligations.EntryNumbersAreDistinctAndNonZero : Prop :=
  ∀ s : State, s.Inv →
    (s.numbered.map Prod.fst).Nodup ∧ ∀ n ∈ s.numbered.map Prod.fst, n ≠ 0 ∧ n < s.cfg.seqMod ∧ n ≠ s.tx.lastAcked

/-- R19, R24 item 5: a sticky flag that is 1 stays 1 until a hardware reset is released. That it also stays 1 when `rst_n` falls,
until the release, is the model's choice (log 7): R155 gives the flags at the release only. -/
def Obligations.StickyFlagsStaySetUntilReset : Prop :=
  ∀ s t : State, (∀ now rest, s.inputs ≠ .resetRelease now :: rest) → step s = .next t →
    (s.status.txFatal = true → t.status.txFatal = true) ∧ (s.status.badAck = true → t.status.badAck = true) ∧
    (s.status.cmdIll = true → t.status.cmdIll = true)

/-- R61: every FRAME a step emits has a sequence number that is not 0, a frame size as length, and exactly that many bytes. -/
def Obligations.EmittedFramesAreLegal : Prop :=
  ∀ s t : State, s.Inv → step s = .next t →
    ∀ sid n len data, Event.frame sid n len data ∈ t.emitted → Event.frame sid n len data ∈ s.emitted ∨
      (1 ≤ n ∧ n < s.cfg.seqMod ∧ len ∈ s.cfg.frameSizes ∧ data.length = len ∧ sid < 2 ^ s.cfg.streamIdW)

/-- R157: nothing but a hardware reset moves `RX.lastRecv` anywhere but to the next number of the ring. That it stands still when
`rst_n` falls, until the release, is the model's choice (log 7). -/
def Obligations.LastRecvMovesOnlyToTheNextNumber : Prop :=
  ∀ s t : State, (∀ now rest, s.inputs ≠ .resetRelease now :: rest) → step s = .next t →
    t.rx.lastRecv = s.rx.lastRecv ∨
    t.rx.lastRecv = (if s.rx.lastRecv = s.cfg.seqMod - 1 then 1 else s.rx.lastRecv + 1)

/-- R5, R20: no step changes a parameter. -/
def Obligations.ParametersNeverChange : Prop :=
  ∀ s t : State, step s = .next t → t.cfg = s.cfg

/-- R8, R40, R155: an event once emitted stays emitted, in its place. That earlier runs' events are kept is the model's choice
(log 9). -/
def Obligations.EmittedEventsAreNeverTakenBack : Prop :=
  ∀ s t : State, step s = .next t → ∃ more, t.emitted = s.emitted ++ more

/-! ## Frames (10_state.md R26, 41_tx_scheduler.md, 42_rx_scheduler.md) -/

/-- R26, R85, R91: WRITE and NOTIFY_ACK change no RX state and no flag but their own; WRITE never writes `TX.lastAcked`;
the events before the command stand. -/
def Obligations.TxCommandsLeaveTheRestUnchanged : Prop :=
  ∀ s t : State,
    (∀ sid chunk, exec (.write sid chunk) s = .next t →
      t.cfg = s.cfg ∧ t.rx = s.rx ∧ t.tx.lastAcked = s.tx.lastAcked ∧ t.status.badAck = s.status.badAck ∧
      t.status.cmdIll = s.status.cmdIll ∧ t.inReset = s.inReset ∧ t.now = s.now ∧ t.inputs = s.inputs ∧ t.pc = s.pc ∧
      t.past = s.past ∧ s.trace <+: t.trace ∧ s.tx.buf <+: t.tx.buf) ∧
    (∀ seq, exec (.notifyAck seq) s = .next t →
      t.cfg = s.cfg ∧ t.rx = s.rx ∧ t.status.txFatal = s.status.txFatal ∧ t.status.cmdIll = s.status.cmdIll ∧
      t.inReset = s.inReset ∧ t.now = s.now ∧ t.inputs = s.inputs ∧ t.pc = s.pc ∧ t.past = s.past ∧
      s.trace <+: t.trace ∧ t.tx.buf <:+ s.tx.buf)

/-- R26, R110, R115: CHECK_PACKET and HANDLE_TIMER change no TX state and no flag, and so no byte of the payload store;
HANDLE_TIMER never writes `RX.lastRecv`; the events before the command stand. -/
def Obligations.RxCommandsLeaveTheRestUnchanged : Prop :=
  ∀ s t : State,
    (∀ seq, exec (.checkPacket seq) s = .next t →
      t.cfg = s.cfg ∧ t.tx = s.tx ∧ t.status = s.status ∧ t.inReset = s.inReset ∧ t.now = s.now ∧ t.inputs = s.inputs ∧
      t.pc = s.pc ∧ t.past = s.past ∧ s.trace <+: t.trace ∧ ∀ a, t.storeByte a = s.storeByte a) ∧
    (exec .handleTimer s = .next t →
      t.cfg = s.cfg ∧ t.tx = s.tx ∧ t.rx.lastRecv = s.rx.lastRecv ∧ t.status = s.status ∧ t.inReset = s.inReset ∧
      t.now = s.now ∧ t.inputs = s.inputs ∧ t.pc = s.pc ∧ t.past = s.past ∧ s.trace <+: t.trace ∧
      ∀ a, t.storeByte a = s.storeByte a)

/-! ## The payload store (20_memory.md R31, R32, R35) -/

/-- R31: the store is in canonical form, lies inside `MAX_UNACKED * MAX_FRAME` bytes, and slot `i` holds the data of entry `i`. -/
def Obligations.PayloadStoreHoldsTheEntriesInTheirSlots : Prop :=
  ∀ s : State, s.Inv →
    s.payloadStore.wf ∧ (∀ p ∈ s.payloadStore, p.1 < s.cfg.maxUnacked * s.cfg.maxFrame) ∧
    ∀ i e, s.tx.buf[i]? = some e → memRead s.payloadStore (slotAddr s.cfg i 0) e.len = some e.data

/-- R32, R35: a WRITE that sends stores its padded chunk in the first free slot, byte `k` of the chunk at byte `k` of the slot,
and leaves every other byte; a WRITE that sends nothing leaves every byte. -/
def Obligations.WriteStoresOnlyIntoItsSlot : Prop :=
  ∀ (s t : State) (sid : Nat) (chunk : List Byte), s.Inv → exec (.write sid chunk) s = .next t →
    let n := trimLen chunk
    let base := slotAddr s.cfg s.txCount 0
    let len := frameRound s.cfg n
    (s.txCount ≠ s.cfg.maxUnacked ∧ n ≠ 0 ∧ n ≤ s.cfg.maxFrame →
      t.payloadStore = memWrite s.payloadStore base (padPayload chunk n len) ∧
      (∀ k, k < n → t.storeByte (base + k) = chunk[k]?) ∧
      (∀ k, n ≤ k → k < len → t.storeByte (base + k) = some 0) ∧
      (∀ a, a < base ∨ base + len ≤ a → t.storeByte a = s.storeByte a)) ∧
    (¬ (s.txCount ≠ s.cfg.maxUnacked ∧ n ≠ 0 ∧ n ≤ s.cfg.maxFrame) → ∀ a, t.storeByte a = s.storeByte a)

/-- R31, R35, R36: a repeated ack leaves every byte; a full reset and a bad ack leave no valid byte; a normal ack of the entry at
position `idx` moves every remaining byte `idx + 1` slots forward, and changes none. -/
def Obligations.NotifyAckMovesWholeSlots : Prop :=
  ∀ (s t : State) (seq : Nat), s.Inv → seq < s.cfg.seqMod → exec (.notifyAck seq) s = .next t →
    (seq ≠ 0 → seq = s.tx.lastAcked → ∀ a, t.storeByte a = s.storeByte a) ∧
    (∀ idx, idx < s.txCount → seq = ringAfter s.cfg s.tx.lastAcked (idx + 1) →
      ∀ a, t.storeByte a = s.storeByte (a + (idx + 1) * s.cfg.maxFrame)) ∧
    (seq = 0 ∨ (seq ≠ s.tx.lastAcked ∧ ∀ idx, idx < s.txCount → seq ≠ ringAfter s.cfg s.tx.lastAcked (idx + 1)) →
      ∀ a, t.storeByte a = none)

/-! ## Independence of the halves (00_scope.md R2, 10_state.md R26, 20_memory.md R43) -/

/-- R2, R19, R99: what WRITE and NOTIFY_ACK do to the TX state and emit depends on no RX state, no flag, no time, nothing but
the TX state and the operands. -/
def Obligations.TxCommandsDependOnlyOnTxState : Prop :=
  ∀ (s s' : State) (i : Instr),
    (∃ sid chunk, i = .write sid chunk) ∨ (∃ seq, i = .notifyAck seq) → s'.cfg = s.cfg → s'.tx = s.tx →
    ∃ t t' evs, exec i s = .next t ∧ exec i s' = .next t' ∧ t'.tx = t.tx ∧
      t.trace = s.trace ++ evs ∧ t'.trace = s'.trace ++ evs

/-- R2, R19, R36: what CHECK_PACKET and HANDLE_TIMER do to the RX state and emit depends on no TX state and no flag, nothing but
the RX state, the sampled `now` and the operands. -/
def Obligations.RxCommandsDependOnlyOnRxStateAndTime : Prop :=
  ∀ (s s' : State) (i : Instr),
    (∃ seq, i = .checkPacket seq) ∨ i = .handleTimer → s'.cfg = s.cfg → s'.rx = s.rx → s'.now = s.now →
    ∃ t t' evs, exec i s = .next t ∧ exec i s' = .next t' ∧ t'.rx = t.rx ∧
      t.trace = s.trace ++ evs ∧ t'.trace = s'.trace ++ evs

/-- R43: a TX command and an RX command reach the same TX state, RX state and flags in either order. -/
def Obligations.TxAndRxCommandsCommute : Prop :=
  ∀ (s : State) (i j : Instr),
    (∃ sid chunk, i = .write sid chunk) ∨ (∃ seq, i = .notifyAck seq) →
    (∃ seq, j = .checkPacket seq) ∨ j = .handleTimer →
    ∃ a b a' b', exec i s = .next a ∧ exec j a = .next b ∧ exec j s = .next a' ∧ exec i a' = .next b' ∧
      b.tx = b'.tx ∧ b.rx = b'.rx ∧ b.status = b'.status

/-! ## The protocol's hazards (70_reset_and_hazards.md) -/

/-- R169: an acknowledgement `back` steps behind `TX.lastAcked` is a bad ack, as long as the ring is longer than `back` and the
buffer together. -/
def Obligations.StaleAckIsABadAck : Prop :=
  ∀ (s : State) (old : Nat) (back : Nat),
    s.cfg.Legal → s.tx.lastAcked < s.cfg.seqMod → 1 ≤ old → old < s.cfg.seqMod → 1 ≤ back →
    back + s.txCount < s.cfg.seqN → s.tx.lastAcked = ringAfter s.cfg old back →
    exec (.notifyAck old) s = .next { s with
      tx := { lastAcked := if s.cfg.txBadackAdopt then old else s.tx.lastAcked, buf := [] }
      status := { s.status with badAck := true }
      trace := s.trace ++ [.space, .result .ok 0] }

/-- R160: with TX_BADACK_ADOPT = 1, after a bad ack carrying the receiver's last number, the number of the sender's next frame
is the one the receiver accepts. -/
def Obligations.AdoptionRealignsSenderAndReceiver : Prop :=
  ∀ (s r : State) (seq : Nat), s.cfg.Legal → s.tx.lastAcked < s.cfg.seqMod → s.txCount ≤ s.cfg.maxUnacked →
    s.cfg.txBadackAdopt = true → r.cfg.seqW = s.cfg.seqW → r.rx.lastRecv = seq →
    seq < s.cfg.seqMod → seq ≠ 0 → seq ≠ s.tx.lastAcked →
    (∀ i, i < s.txCount → seq ≠ ringAfter s.cfg s.tx.lastAcked (i + 1)) →
    ∃ t r', exec (.notifyAck seq) s = .next t ∧
      exec (.checkPacket (seqOfPos t.cfg t.tx.lastAcked t.txCount)) r = .next r' ∧
      r'.rx.lastRecv = seqOfPos t.cfg t.tx.lastAcked t.txCount

/-- R168: with TX_BADACK_ADOPT = 0 the sender stays at its own number: the receiver drops its next frame, and the receiver's
repeated acknowledgement is again a bad ack with the same outcome. The case `TX.lastAcked = 0`, receiver at SEQ_MOD - 1, in
which both expect 1, is the exception. -/
def Obligations.WithoutAdoptionABadAckRepeats : Prop :=
  ∀ (s r : State) (seq : Nat), s.cfg.Legal → s.tx.lastAcked < s.cfg.seqMod → s.txCount ≤ s.cfg.maxUnacked →
    s.cfg.txBadackAdopt = false → r.cfg.seqW = s.cfg.seqW → r.rx.lastRecv = seq →
    seq < s.cfg.seqMod → seq ≠ 0 → seq ≠ s.tx.lastAcked → ¬ (s.tx.lastAcked = 0 ∧ seq = s.cfg.seqMod - 1) →
    (∀ i, i < s.txCount → seq ≠ ringAfter s.cfg s.tx.lastAcked (i + 1)) →
    ∃ t u, exec (.notifyAck seq) s = .next t ∧ t.tx = { lastAcked := s.tx.lastAcked, buf := [] } ∧
      exec (.checkPacket (seqOfPos t.cfg t.tx.lastAcked t.txCount)) r =
        .next { r with trace := r.trace ++ [.result .ok 0] } ∧
      exec (.notifyAck seq) t = .next u ∧ u.tx = t.tx ∧ u.status.badAck = true

/-- R171: the repair of a loss. When the sender hears the receiver's last number again, the frames it sends again are, in
order, all accepted, and the receiver ends at the newest entry's number. -/
def Obligations.RetransmissionIsAcceptedWhole : Prop :=
  ∀ s r : State, s.Inv → r.cfg.seqW = s.cfg.seqW → s.tx.lastAcked ≠ 0 → r.rx.lastRecv = s.tx.lastAcked →
    ∃ t evs r' evs', exec (.notifyAck s.tx.lastAcked) s = .next t ∧ t.trace = s.trace ++ evs ∧
      receiveAll (frameSeqs evs) r = .next r' ∧ r'.trace = r.trace ++ evs' ∧
      resultPort evs' = List.replicate s.txCount (0, 1) ∧
      r'.rx.lastRecv = seqAdvance s.cfg s.tx.lastAcked s.txCount

/-- R164: a retransmission the receiver did not need changes nothing at the receiver: every frame is dropped. -/
def Obligations.UnneededRetransmissionIsDroppedWhole : Prop :=
  ∀ s r : State, s.Inv → r.cfg.seqW = s.cfg.seqW → s.tx.lastAcked ≠ 0 →
    r.rx.lastRecv = seqAdvance s.cfg s.tx.lastAcked s.txCount →
    ∃ t evs r', exec (.notifyAck s.tx.lastAcked) s = .next t ∧ t.trace = s.trace ++ evs ∧
      receiveAll (frameSeqs evs) r = .next r' ∧ r'.rx = r.rx ∧
      r'.trace = r.trace ++ List.replicate s.txCount (.result .ok 0)

/-! ## Two instances (60_exceptions.md R146, 20_memory.md R46) -/

/-- Over a channel that loses, duplicates and reorders: what a receiver stands at, and what it acknowledges, is 0 or a number its
peer has sent; every frame number ever emitted is a number of its ring (R70). It holds when both ends have been reset. The channel
and the hosts are the model's choice (log 18). -/
def Obligations.FreshLinkMeetsTheLinkInvariant : Prop :=
  ∀ (cx cy : Config) (nowX nowY : Nat), cx.Legal → cy.Legal → (Link.start cx cy nowX nowY).Inv

/-- The same is kept by every event at either end, hardware resets and the full resets a host chooses (R156) included. The channel,
which loses, delays, repeats and reorders but does not corrupt, and the hosts, which make up no number but that 0 and issue
well-formed commands and whole reset pulses, are the model's choice (log 18). -/
def Obligations.EveryLinkEventKeepsTheLinkInvariant : Prop :=
  ∀ (l m : Link) (e : LinkEvent), l.Inv → l.step e = .next m → m.Inv

/-! ## Ports (10_state.md R21) -/

/-- R21: every status value fits the width of its port. -/
def Obligations.StatusValuesFitTheirPorts : Prop :=
  ∀ s : State, s.Inv →
    s.statusPorts.stTxLastAcked < 2 ^ s.cfg.seqW ∧
    s.statusPorts.stTxCount < 2 ^ Nat.clog 2 (s.cfg.maxUnacked + 1) ∧
    (s.statusPorts.stFull = true ↔ s.txCount = s.cfg.maxUnacked) ∧
    s.statusPorts.stRxLastRecv < 2 ^ s.cfg.seqW ∧
    s.statusPorts.stRxUnacked < 2 ^ max 1 (Nat.clog 2 s.cfg.maxBeforeAck) ∧
    s.statusPorts.stRxNextAck < 2 ^ s.cfg.timeW
end

