-- ==== Sys2Proof/Laws/Arith.lean ====
section
/-! SUPPORT. Small lemmas of the pure functions (40_seq_arith.md): ranges of the parameters, of sequence numbers and of times,
and what trimming and rounding answer on their domains. -/

namespace Sys2Proof.Machine

/-! ## Parameters -/

theorem seqMod_ge_four {c : Config} (h : c.Legal) : 4 ≤ c.seqMod :=
  (Nat.pow_le_pow_right (by decide) h.1.1 : 2 ^ 2 ≤ 2 ^ c.seqW)

theorem seqMod_le_65536 {c : Config} (h : c.Legal) : c.seqMod ≤ 65536 :=
  (Nat.pow_le_pow_right (by decide) h.1.2 : 2 ^ c.seqW ≤ 2 ^ 16)

theorem maxUnacked_le {c : Config} (h : c.Legal) : c.maxUnacked + 2 ≤ c.seqMod := by
  have h4 := seqMod_ge_four h
  have := h.2.1.2
  omega

theorem timeMod_pos (c : Config) : 0 < c.timeMod := Nat.two_pow_pos _

theorem timeMod_eq_half {c : Config} (h : c.Legal) : c.timeMod = 2 * 2 ^ (c.timeW - 1) := by
  have h8 : 8 ≤ c.timeW := h.2.2.2.2.2.2.2.1
  have : c.timeW = c.timeW - 1 + 1 := by omega
  rw [Config.timeMod, this, Nat.pow_succ, Nat.mul_comm]
  rfl

theorem timeMod_le {c : Config} (h : c.Legal) : c.timeMod ≤ 4294967296 :=
  (Nat.pow_le_pow_right (by decide) h.2.2.2.2.2.2.2.2 : 2 ^ c.timeW ≤ 2 ^ 32)

theorem ackInterval_lt_half {c : Config} (h : c.Legal) : c.ackIntervalMs < 2 ^ (c.timeW - 1) := by
  have h1 := h.2.2.2.2.2.2.1.2
  have := Nat.two_pow_pos (c.timeW - 1)
  omega

/-! ## Sequence numbers -/

theorem seqSucc_pos (c : Config) (s : Nat) : 0 < seqSucc c s := by
  unfold seqSucc; split <;> omega

theorem seqSucc_ne_zero (c : Config) (s : Nat) : seqSucc c s ≠ 0 := (seqSucc_pos c s).ne'

theorem seqSucc_lt {c : Config} (h : c.Legal) {s : Nat} (hs : s < c.seqMod) : seqSucc c s < c.seqMod := by
  have h4 := seqMod_ge_four h
  unfold seqSucc; split <;> omega

theorem seqAdvance_lt {c : Config} (h : c.Legal) {s : Nat} (hs : s < c.seqMod) (n : Nat) :
    seqAdvance c s n < c.seqMod := by
  induction n with
  | zero => exact hs
  | succ n ih => exact seqSucc_lt h ih

theorem seqOfPos_pos (c : Config) (s : Nat) (i : Nat) : 0 < seqOfPos c s i := seqSucc_pos c _

theorem seqOfPos_lt {c : Config} (h : c.Legal) {s : Nat} (hs : s < c.seqMod) (i : Nat) :
    seqOfPos c s i < c.seqMod := seqAdvance_lt h hs _

theorem seqSucc_congr {c d : Config} (h : c.seqW = d.seqW) (s : Nat) : seqSucc c s = seqSucc d s := by
  have hm : c.seqMod = d.seqMod := by rw [Config.seqMod, Config.seqMod, h]
  rw [seqSucc, seqSucc, hm]

/-! ## Time -/

theorem timeWrap_lt (c : Config) (t : Nat) : timeWrap c t < c.timeMod := Nat.mod_lt _ (timeMod_pos c)

theorem timeAdd_lt (c : Config) (t d : Nat) : timeAdd c t d < c.timeMod := timeWrap_lt c _

/-- The wrapped difference of two times on the line: `(t + d) - t` is `d`. -/
theorem timeSub_add (c : Config) (t d : Nat) (hd : d < c.timeMod) : timeSub c ((t + d) % c.timeMod) t = d := by
  rw [timeSub, Int.natCast_mod, Int.emod_sub_emod, Nat.cast_add, add_sub_cancel_left, ← Int.natCast_mod,
    Int.toNat_natCast, Nat.mod_eq_of_lt hd]

/-! ## Lengths -/

theorem trimLen_le (b : List Byte) : trimLen b ≤ b.length := by
  unfold trimLen
  exact (List.length_dropWhile_le _ _).trans (by simp)

@[simp] theorem trimLen_zeros (k : Nat) : trimLen (zeros k) = 0 := by
  simp [trimLen, zeros]

@[simp] theorem trimLen_append_zeros (b : List Byte) (k : Nat) : trimLen (b ++ zeros k) = trimLen b := by
  induction k with
  | zero => simp [zeros]
  | succ k ih =>
    have h : b ++ zeros (k + 1) = (b ++ zeros k) ++ [0] := by simp [zeros, List.replicate_succ']
    rw [h, ← ih, trimLen, trimLen, List.reverse_append]
    rfl

theorem trimLen_concat (b : List Byte) {x : Byte} (hx : x ≠ 0) : trimLen (b ++ [x]) = b.length + 1 := by
  have hx' : ¬ x = 0#8 := hx
  simp [trimLen, hx']

/-- A chunk is all zero, or a body, a last non-zero byte and trailing zeros. -/
theorem chunk_cases (b : List Byte) :
    (∃ k, b = zeros k) ∨ ∃ body x k, x ≠ 0 ∧ b = body ++ [x] ++ zeros k := by
  induction b using List.reverseRecOn with
  | nil => exact .inl ⟨0, rfl⟩
  | append_singleton b x ih =>
    by_cases hx : x = 0
    · subst hx
      rcases ih with ⟨k, rfl⟩ | ⟨body, y, k, hy, rfl⟩
      · exact .inl ⟨k + 1, by simp [zeros, List.replicate_succ']⟩
      · exact .inr ⟨body, y, k + 1, hy, by simp [zeros, List.replicate_succ']⟩
    · exact .inr ⟨b, x, 0, hx, by simp [zeros]⟩

/-- A frame size is a positive number of at most `MAX_FRAME`. -/
theorem frameSize_le {c : Config} (h : c.Legal) {m : Nat} (hm : m ∈ c.frameSizes) : 1 ≤ m ∧ m ≤ c.maxFrame := by
  refine ⟨h.2.2.1.2.1 m hm, ?_⟩
  obtain ⟨l, x, hl⟩ := (List.eq_nil_or_concat c.frameSizes).resolve_left h.2.2.1.1
  have hp := h.2.2.1.2.2.1
  have hmax : c.maxFrame = x := by simp [Config.maxFrame, hl]
  rw [hl] at hp hm
  rw [hmax]
  rcases List.mem_append.1 (by simpa using hm : m ∈ l ++ [x]) with h1 | h1
  · rw [List.concat_eq_append, List.pairwise_append] at hp
    exact Nat.le_of_lt (hp.2.2 m h1 x (by simp))
  · simp at h1; omega

theorem maxFrame_mem {c : Config} (h : c.Legal) : c.maxFrame ∈ c.frameSizes := by
  obtain ⟨l, x, hl⟩ := (List.eq_nil_or_concat c.frameSizes).resolve_left h.2.2.1.1
  simp [Config.maxFrame, hl]

/-- On its domain `frame_round` is a frame size. -/
theorem frameRound_mem {c : Config} (h : c.Legal) {n : Nat} (h1 : 1 ≤ n) (h2 : n ≤ c.maxFrame) :
    frameRound c n ∈ c.frameSizes ∧ n ≤ frameRound c n := by
  unfold frameRound
  rw [if_neg (by omega)]
  cases hf : c.frameSizes.find? (fun m => decide (n ≤ m)) with
  | none =>
    have := List.find?_eq_none.1 hf _ (maxFrame_mem h)
    simp at this; omega
  | some m => exact ⟨List.mem_of_find?_eq_some hf, by simpa using List.find?_some hf⟩

theorem length_padPayload {chunk : List Byte} {n len : Nat} (h : n ≤ chunk.length) (hl : n ≤ len) :
    (padPayload chunk n len).length = len := by
  simp [padPayload, zeros, h]; omega

end Sys2Proof.Machine
end

