-- ==== Sys2Proof/Laws/Encoding.lean ====
section
/-! SUPPORT. The header and its four bytes are the same 32 bits, and the fields of a packed header are those it was packed
from (R51). -/

namespace Sys2Proof

open Sys2Proof.Machine

theorem header_toNat (b0 b1 b2 b3 : Byte) :
    (header b0 b1 b2 b3).toNat = b0.toNat + 256 * b1.toNat + 65536 * b2.toNat + 16777216 * b3.toNat := by
  have := b0.isLt
  have := b1.isLt
  have := b2.isLt
  have := b3.isLt
  rw [header, BitVec.toNat_ofNat]
  omega

/-- The bytes of a header make that header. -/
theorem header_of_bytes (h : Header) :
    header (h.extractLsb' 0 8) (h.extractLsb' 8 8) (h.extractLsb' 16 8) (h.extractLsb' 24 8) = h := by
  apply BitVec.eq_of_toNat_eq
  rw [header_toNat]
  have := h.isLt
  simp only [BitVec.extractLsb'_toNat, Nat.shiftRight_eq_div_pow]
  omega

/-- The header of four bytes has those bytes. -/
theorem headerBytes_header (b0 b1 b2 b3 : Byte) : headerBytes (header b0 b1 b2 b3) = [b0, b1, b2, b3] := by
  have := b0.isLt
  have := b1.isLt
  have := b2.isLt
  have := b3.isLt
  have h := header_toNat b0 b1 b2 b3
  simp only [headerBytes, List.cons.injEq, and_true]
  refine ⟨?_, ?_, ?_, ?_⟩ <;> apply BitVec.eq_of_toNat_eq <;>
    simp only [BitVec.extractLsb'_toNat, Nat.shiftRight_eq_div_pow, h] <;> omega

/-- Decoding a packet is reading the fields of its header. -/
theorem decode_encode_eq (c : Config) (i : Instr) : decode c (encode i) = decodeHeader c i.header i.payload := by
  simp only [encode, headerBytes, List.cons_append, List.nil_append, decode, header_of_bytes]

theorem length_encode (i : Instr) : (encode i).length = 4 + i.payload.length := by
  simp only [encode, headerBytes, List.length_append, List.length_cons, List.length_nil]

theorem packHeader_toNat (op : Op) {sid arg : Nat} (hs : sid < 256) (ha : arg < 65536) :
    (packHeader op sid arg).toNat = 1073741824 * op.bits.toNat + 65536 * sid + arg := by
  have := op.bits.isLt
  rw [packHeader, BitVec.toNat_ofNat]
  omega

theorem opField_packHeader (op : Op) {sid arg : Nat} (hs : sid < 256) (ha : arg < 65536) :
    opField (packHeader op sid arg) = op.bits := by
  apply BitVec.eq_of_toNat_eq
  simp only [opField, BitVec.extractLsb'_toNat, Nat.shiftRight_eq_div_pow, packHeader_toNat op hs ha]
  have := op.bits.isLt
  omega

theorem rsvField_packHeader (op : Op) {sid arg : Nat} (hs : sid < 256) (ha : arg < 65536) :
    rsvField (packHeader op sid arg) = 0 := by
  apply BitVec.eq_of_toNat_eq
  simp only [rsvField, BitVec.extractLsb'_toNat, Nat.shiftRight_eq_div_pow, packHeader_toNat op hs ha]
  show _ = 0
  omega

theorem sidField_packHeader (op : Op) {sid arg : Nat} (hs : sid < 256) (ha : arg < 65536) :
    sidField (packHeader op sid arg) = sid := by
  simp only [sidField, BitVec.extractLsb'_toNat, Nat.shiftRight_eq_div_pow, packHeader_toNat op hs ha]
  omega

theorem argField_packHeader (op : Op) {sid arg : Nat} (hs : sid < 256) (ha : arg < 65536) :
    argField (packHeader op sid arg) = arg := by
  simp only [argField, BitVec.extractLsb'_toNat, Nat.shiftRight_eq_div_pow, packHeader_toNat op hs ha]
  omega

@[simp] theorem Op.ofBits_bits (op : Op) : Op.ofBits op.bits = op := by cases op <;> rfl

theorem Op.bits_ofBits (b : BitVec 2) : (Op.ofBits b).bits = b := by
  revert b
  decide

/-- A well-formed stream id fits the 8-bit field, a well-formed `arg` the 16-bit field (R5, R51). -/
theorem Instr.Legal.write_fits {c : Config} (h : c.Legal) {sid : Nat} {chunk : List Byte} (hi : (Instr.write sid chunk).Legal c) :
    sid < 256 ∧ chunk.length < 65536 := by
  simp only [Instr.Legal, Instr.wf, Bool.and_eq_true, decide_eq_true_eq] at hi
  have h8 : 2 ^ c.streamIdW ≤ 2 ^ 8 := Nat.pow_le_pow_right (by decide) h.2.2.2.1.2
  have h16 := h.2.2.2.2.1.2
  omega

end Sys2Proof
end

