-- ==== Sys2Proof/Laws/Memory.lean ====
section
/-! SUPPORT. The payload store as bytes by address: reading after writing, the canonical form, and what the cells of a list of
entries read as (R31, 00_scope.md section 5.3). -/

namespace Sys2Proof.Machine

/-! ## One byte -/

theorem Memory.read_write_same (m : Memory) (a : Nat) (v : Byte) : (m.write a v).read a = some v := by
  induction m with
  | nil => simp [Memory.write, Memory.read]
  | cons p rest ih =>
    obtain ⟨b, w⟩ := p
    rw [Memory.write]
    split
    · simp [Memory.read]
    · split
      · simp [Memory.read]
      · rename_i hne
        rw [Memory.read, if_neg hne, ih]

theorem Memory.read_write_other (m : Memory) {a x : Nat} (v : Byte) (h : x ≠ a) : (m.write a v).read x = m.read x := by
  induction m with
  | nil => simp [Memory.write, Memory.read, h]
  | cons p rest ih =>
    obtain ⟨b, w⟩ := p
    rw [Memory.write]
    split
    · simp [Memory.read, h]
    · split
      · rename_i hab
        subst hab
        simp [Memory.read, h]
      · simp only [Memory.read, ih]

/-- A write adds no address but its own. -/
theorem Memory.mem_write {m : Memory} {a : Nat} {v : Byte} {p : Host.Cell} (h : p ∈ m.write a v) : p.1 = a ∨ p ∈ m := by
  induction m with
  | nil => simp [Memory.write] at h; simp [h]
  | cons q rest ih =>
    obtain ⟨b, w⟩ := q
    rw [Memory.write] at h
    split at h
    · rcases List.mem_cons.1 h with rfl | h
      · exact .inl rfl
      · exact .inr h
    · split at h
      · rcases List.mem_cons.1 h with rfl | h
        · exact .inl rfl
        · exact .inr (List.mem_cons_of_mem _ h)
      · rcases List.mem_cons.1 h with rfl | h
        · exact .inr (by simp)
        · rcases ih h with h | h
          · exact .inl h
          · exact .inr (List.mem_cons_of_mem _ h)

/-- A write keeps the canonical form. -/
theorem Memory.write_wf {m : Memory} (h : m.wf) (a : Nat) (v : Byte) : (m.write a v).wf := by
  induction m with
  | nil => simp [Memory.write, Memory.wf]
  | cons q rest ih =>
    obtain ⟨b, w⟩ := q
    obtain ⟨hb, hr⟩ := List.pairwise_cons.1 h
    rw [Memory.write]
    split
    · rename_i hab
      refine List.pairwise_cons.2 ⟨fun p hp => ?_, h⟩
      rcases List.mem_cons.1 hp with rfl | hp
      · exact hab
      · exact Nat.lt_trans hab (hb p hp)
    · split
      · rename_i hab
        subst hab
        exact List.pairwise_cons.2 ⟨hb, hr⟩
      · rename_i h1 h2
        refine List.pairwise_cons.2 ⟨fun p hp => ?_, ih hr⟩
        rcases Memory.mem_write hp with hp | hp
        · show b < p.1
          omega
        · exact hb p hp

/-- Two memories in canonical form that read alike at every address are the same data. -/
theorem Memory.ext_read {m n : Memory} (hm : m.wf) (hn : n.wf) (h : ∀ a, m.read a = n.read a) : m = n := by
  have below : ∀ {m : Memory} {a : Nat}, (∀ p ∈ m, a < p.1) → m.read a = none := by
    intro m a hall
    induction m with
    | nil => rfl
    | cons q rest ih =>
      obtain ⟨b, w⟩ := q
      have hb : a < b := hall (b, w) (by simp)
      rw [Memory.read, if_neg (by omega), ih (fun p hp => hall p (by simp [hp]))]
  induction m generalizing n with
  | nil =>
    cases n with
    | nil => rfl
    | cons q rest => simpa [Memory.read] using h q.1
  | cons p ms ih =>
    cases n with
    | nil => simpa [Memory.read] using h p.1
    | cons q ns =>
      obtain ⟨a, v⟩ := p
      obtain ⟨b, w⟩ := q
      obtain ⟨ha, hms⟩ := List.pairwise_cons.1 hm
      obtain ⟨hb, hns⟩ := List.pairwise_cons.1 hn
      have hab : a = b := by
        rcases Nat.lt_trichotomy a b with hlt | heq | hgt
        · have := h a
          rw [Memory.read, if_pos rfl, below (m := (b, w) :: ns)] at this
          · simp at this
          · intro p hp
            rcases List.mem_cons.1 hp with rfl | hp
            · exact hlt
            · exact Nat.lt_trans hlt (hb p hp)
        · exact heq
        · have := h b
          rw [below (m := (a, v) :: ms), Memory.read, if_pos rfl] at this
          · simp at this
          · intro p hp
            rcases List.mem_cons.1 hp with rfl | hp
            · exact hgt
            · exact Nat.lt_trans hgt (ha p hp)
      subst hab
      have hv : v = w := by simpa [Memory.read] using h a
      subst hv
      rw [ih hms hns]
      intro x
      by_cases hx : x = a
      · subst hx
        rw [below (fun p hp => ha p hp), below (fun p hp => hb p hp)]
      · simpa [Memory.read, hx] using h x

/-! ## Several bytes -/

theorem memWrite_wf {m : Memory} (h : m.wf) (addr : Nat) (bs : List Byte) : (memWrite m addr bs).wf := by
  induction bs generalizing m addr with
  | nil => exact h
  | cons b bs ih => exact ih (Memory.write_wf h addr b) _

theorem read_memWrite (m : Memory) (addr : Nat) (bs : List Byte) (a : Nat) :
    (memWrite m addr bs).read a = if addr ≤ a ∧ a < addr + bs.length then bs[a - addr]? else m.read a := by
  induction bs generalizing m addr with
  | nil => rw [memWrite, if_neg (by simp only [List.length_nil]; omega)]
  | cons b bs ih =>
    rw [memWrite, ih]
    simp only [List.length_cons]
    by_cases h : a = addr
    · subst h
      rw [if_neg (by omega), if_pos (by omega), Memory.read_write_same]
      simp
    · by_cases h1 : addr + 1 ≤ a ∧ a < addr + 1 + bs.length
      · rw [if_pos h1, if_pos (by omega), show a - addr = (a - (addr + 1)) + 1 by omega, List.getElem?_cons_succ]
      · rw [if_neg h1, if_neg (by omega), Memory.read_write_other _ _ h]

/-- A read of the bytes just written gives them. -/
theorem memRead_eq_some {m : Memory} {addr : Nat} {bs : List Byte} (h : ∀ k, k < bs.length → m.read (addr + k) = bs[k]?) :
    memRead m addr bs.length = some bs := by
  induction bs generalizing addr with
  | nil => rfl
  | cons b bs ih =>
    have h0 : m.read addr = some b := by simpa using h 0 (by simp)
    have hs : memRead m (addr + 1) bs.length = some bs :=
      ih (fun k hk => by
        have := h (k + 1) (by simp only [List.length_cons]; omega)
        rwa [← Nat.add_assoc, List.getElem?_cons_succ, Nat.add_right_comm] at this)
    simp [memRead, h0, hs]

/-! ## The cells of the entries -/

theorem read_append (m n : Memory) (a : Nat) : Memory.read (m ++ n) a = (Memory.read m a).or (Memory.read n a) := by
  induction m with
  | nil => simp [Memory.read]
  | cons q rest ih =>
    obtain ⟨b, w⟩ := q
    simp only [List.cons_append, Memory.read, ih]
    split <;> simp

theorem read_cellsAt (addr : Nat) (bs : List Byte) (a : Nat) :
    (cellsAt addr bs).read a = if addr ≤ a then bs[a - addr]? else none := by
  induction bs generalizing addr with
  | nil => simp [cellsAt, Memory.read]
  | cons b bs ih =>
    rw [cellsAt, Memory.read, ih]
    by_cases h : a = addr
    · subst h; simp
    · rw [if_neg h]
      by_cases h1 : addr ≤ a
      · rw [if_pos (by omega), if_pos h1, show a - addr = (a - (addr + 1)) + 1 by omega, List.getElem?_cons_succ]
      · rw [if_neg (by omega), if_neg h1]

theorem mem_cellsAt {addr : Nat} {bs : List Byte} {p : Host.Cell} (h : p ∈ cellsAt addr bs) :
    addr ≤ p.1 ∧ p.1 < addr + bs.length := by
  induction bs generalizing addr with
  | nil => simp [cellsAt] at h
  | cons b bs ih =>
    simp only [List.length_cons]
    rcases List.mem_cons.1 h with rfl | h
    · constructor <;> simp
    · have := ih h
      omega

theorem cellsAt_wf (addr : Nat) (bs : List Byte) : (cellsAt addr bs).wf := by
  induction bs generalizing addr with
  | nil => exact .nil
  | cons b bs ih => exact List.pairwise_cons.2 ⟨fun p hp => (mem_cellsAt hp).1, ih (addr + 1)⟩

/-- The cells of entries from slot `i` on lie in the slots `i` to `i + length - 1`. -/
theorem mem_cellsFrom {c : Config} {i : Nat} {es : List Entry} (hd : ∀ e ∈ es, e.data.length ≤ c.maxFrame) {p : Host.Cell}
    (h : p ∈ cellsFrom c i es) : i * c.maxFrame ≤ p.1 ∧ p.1 < (i + es.length) * c.maxFrame := by
  induction es generalizing i with
  | nil => simp [cellsFrom] at h
  | cons e es ih =>
    have hlen : (i + (e :: es).length) * c.maxFrame = (i + 1 + es.length) * c.maxFrame := by
      simp only [List.length_cons]; congr 1; omega
    have hmul : (i + 1 + es.length) * c.maxFrame = i * c.maxFrame + c.maxFrame + es.length * c.maxFrame := by
      rw [Nat.add_mul, Nat.add_mul, Nat.one_mul]
    rw [cellsFrom] at h
    rcases List.mem_append.1 h with h | h
    · have h1 := mem_cellsAt h
      have h2 := hd e (by simp)
      simp only [slotAddr, Nat.add_zero] at h1
      omega
    · have h1 := ih (fun e he => hd e (by simp [he])) h
      have h2 : (i + 1) * c.maxFrame = i * c.maxFrame + c.maxFrame := by rw [Nat.add_mul, Nat.one_mul]
      omega

theorem cellsFrom_wf {c : Config} {es : List Entry} (hd : ∀ e ∈ es, e.data.length ≤ c.maxFrame) (i : Nat) :
    (cellsFrom c i es).wf := by
  induction es generalizing i with
  | nil => exact .nil
  | cons e es ih =>
    have hes : ∀ e ∈ es, e.data.length ≤ c.maxFrame := fun e he => hd e (by simp [he])
    refine List.pairwise_append.2 ⟨cellsAt_wf _ _, ih hes (i + 1), fun p hp q hq => ?_⟩
    have h1 := mem_cellsAt hp
    have h2 := hd e (by simp)
    have h3 := mem_cellsFrom hes hq
    have h4 : (i + 1) * c.maxFrame = i * c.maxFrame + c.maxFrame := by rw [Nat.add_mul, Nat.one_mul]
    simp only [slotAddr, Nat.add_zero] at h1
    omega

/-- The byte at an address is byte `a % MAX_FRAME` of the entry in slot `a / MAX_FRAME`, if it has one (R31). -/
theorem read_cellsFrom {c : Config} {es : List Entry} (hd : ∀ e ∈ es, e.data.length ≤ c.maxFrame) (hc : 0 < c.maxFrame)
    (i a : Nat) : (cellsFrom c i es).read a =
      if i ≤ a / c.maxFrame then es[a / c.maxFrame - i]?.bind (fun e => e.data[a % c.maxFrame]?) else none := by
  induction es generalizing i with
  | nil => simp [cellsFrom, Memory.read]
  | cons e es ih =>
    have hes : ∀ e ∈ es, e.data.length ≤ c.maxFrame := fun e he => hd e (by simp [he])
    have hda := Nat.div_add_mod a c.maxFrame
    have hmod := Nat.mod_lt a hc
    have hlen := hd e (by simp)
    rw [Nat.mul_comm] at hda
    rw [cellsFrom, show slotAddr c i 0 = i * c.maxFrame from rfl, read_append, read_cellsAt, ih hes]
    rcases Nat.lt_trichotomy i (a / c.maxFrame) with hlt | heq | hgt
    · have h1 : (i + 1) * c.maxFrame ≤ a / c.maxFrame * c.maxFrame := Nat.mul_le_mul_right _ hlt
      have h2 : (i + 1) * c.maxFrame = i * c.maxFrame + c.maxFrame := by rw [Nat.add_mul, Nat.one_mul]
      rw [if_pos (by omega), if_pos (by omega), if_pos (by omega), List.getElem?_eq_none (by omega),
        show a / c.maxFrame - i = (a / c.maxFrame - (i + 1)) + 1 by omega, List.getElem?_cons_succ]
      simp
    · rw [← heq] at hda ⊢
      rw [if_pos (by omega), if_neg (by omega), if_pos (Nat.le_refl _), Nat.sub_self, List.getElem?_cons_zero,
        show a - i * c.maxFrame = a % c.maxFrame by omega]
      simp
    · have h1 : (a / c.maxFrame + 1) * c.maxFrame ≤ i * c.maxFrame := Nat.mul_le_mul_right _ hgt
      have h2 : (a / c.maxFrame + 1) * c.maxFrame = a / c.maxFrame * c.maxFrame + c.maxFrame := by
        rw [Nat.add_mul, Nat.one_mul]
      rw [if_neg (by omega), if_neg (by omega), if_neg (by omega)]
      rfl

/-! ## The payload store -/

@[simp] theorem emitAll_payloadStore (evs : List Event) (s : State) : (emitAll evs s).payloadStore = s.payloadStore := rfl
@[simp] theorem emit_payloadStore (e : Event) (s : State) : (emit e s).payloadStore = s.payloadStore := rfl
@[simp] theorem reply_payloadStore (v : Word32) (s : State) : (reply v s).payloadStore = s.payloadStore := rfl
@[simp] theorem raise_payloadStore (k : Condition) (s : State) : (raise k s).payloadStore = s.payloadStore := rfl
@[simp] theorem clearBuffer_payloadStore (s : State) : (clearBuffer s).payloadStore = [] := rfl
@[simp] theorem hardwareReset_payloadStore (c : Config) (now : Nat) : (State.hardwareReset c now).payloadStore = [] := rfl

end Sys2Proof.Machine
end

