-- ==== Sys2Proof/Laws/State.lean ====
section
/-! SUPPORT. One lemma for each field of State and each shared operation: what the operation leaves in that field. -/

namespace Sys2Proof.Machine

variable (s : State)

@[simp] theorem emitAll_cfg (evs : List Event) : (emitAll evs s).cfg = s.cfg := rfl
@[simp] theorem emitAll_tx (evs : List Event) : (emitAll evs s).tx = s.tx := rfl
@[simp] theorem emitAll_rx (evs : List Event) : (emitAll evs s).rx = s.rx := rfl
@[simp] theorem emitAll_status (evs : List Event) : (emitAll evs s).status = s.status := rfl
@[simp] theorem emitAll_inReset (evs : List Event) : (emitAll evs s).inReset = s.inReset := rfl
@[simp] theorem emitAll_now (evs : List Event) : (emitAll evs s).now = s.now := rfl
@[simp] theorem emitAll_inputs (evs : List Event) : (emitAll evs s).inputs = s.inputs := rfl
@[simp] theorem emitAll_pc (evs : List Event) : (emitAll evs s).pc = s.pc := rfl
@[simp] theorem emitAll_trace (evs : List Event) : (emitAll evs s).trace = s.trace ++ evs := rfl
@[simp] theorem emitAll_past (evs : List Event) : (emitAll evs s).past = s.past := rfl

@[simp] theorem emit_cfg (e : Event) : (emit e s).cfg = s.cfg := rfl
@[simp] theorem emit_tx (e : Event) : (emit e s).tx = s.tx := rfl
@[simp] theorem emit_rx (e : Event) : (emit e s).rx = s.rx := rfl
@[simp] theorem emit_status (e : Event) : (emit e s).status = s.status := rfl
@[simp] theorem emit_inReset (e : Event) : (emit e s).inReset = s.inReset := rfl
@[simp] theorem emit_now (e : Event) : (emit e s).now = s.now := rfl
@[simp] theorem emit_inputs (e : Event) : (emit e s).inputs = s.inputs := rfl
@[simp] theorem emit_pc (e : Event) : (emit e s).pc = s.pc := rfl
@[simp] theorem emit_trace (e : Event) : (emit e s).trace = s.trace ++ [e] := rfl
@[simp] theorem emit_past (e : Event) : (emit e s).past = s.past := rfl

@[simp] theorem reply_cfg (v : Word32) : (reply v s).cfg = s.cfg := rfl
@[simp] theorem reply_tx (v : Word32) : (reply v s).tx = s.tx := rfl
@[simp] theorem reply_rx (v : Word32) : (reply v s).rx = s.rx := rfl
@[simp] theorem reply_status (v : Word32) : (reply v s).status = s.status := rfl
@[simp] theorem reply_inReset (v : Word32) : (reply v s).inReset = s.inReset := rfl
@[simp] theorem reply_now (v : Word32) : (reply v s).now = s.now := rfl
@[simp] theorem reply_inputs (v : Word32) : (reply v s).inputs = s.inputs := rfl
@[simp] theorem reply_pc (v : Word32) : (reply v s).pc = s.pc := rfl
@[simp] theorem reply_trace (v : Word32) : (reply v s).trace = s.trace ++ [.result .ok v] := rfl
@[simp] theorem reply_past (v : Word32) : (reply v s).past = s.past := rfl

@[simp] theorem markCondition_cfg (k : Condition) : (markCondition k s).cfg = s.cfg := rfl
@[simp] theorem markCondition_tx (k : Condition) : (markCondition k s).tx = s.tx := rfl
@[simp] theorem markCondition_rx (k : Condition) : (markCondition k s).rx = s.rx := rfl
@[simp] theorem markCondition_status (k : Condition) : (markCondition k s).status = k.mark s.status := rfl
@[simp] theorem markCondition_inReset (k : Condition) : (markCondition k s).inReset = s.inReset := rfl
@[simp] theorem markCondition_now (k : Condition) : (markCondition k s).now = s.now := rfl
@[simp] theorem markCondition_inputs (k : Condition) : (markCondition k s).inputs = s.inputs := rfl
@[simp] theorem markCondition_pc (k : Condition) : (markCondition k s).pc = s.pc := rfl
@[simp] theorem markCondition_trace (k : Condition) : (markCondition k s).trace = s.trace := rfl
@[simp] theorem markCondition_past (k : Condition) : (markCondition k s).past = s.past := rfl

@[simp] theorem raise_cfg (k : Condition) : (raise k s).cfg = s.cfg := rfl
@[simp] theorem raise_tx (k : Condition) : (raise k s).tx = s.tx := rfl
@[simp] theorem raise_rx (k : Condition) : (raise k s).rx = s.rx := rfl
@[simp] theorem raise_status (k : Condition) : (raise k s).status = k.mark s.status := rfl
@[simp] theorem raise_inReset (k : Condition) : (raise k s).inReset = s.inReset := rfl
@[simp] theorem raise_now (k : Condition) : (raise k s).now = s.now := rfl
@[simp] theorem raise_inputs (k : Condition) : (raise k s).inputs = s.inputs := rfl
@[simp] theorem raise_pc (k : Condition) : (raise k s).pc = s.pc := rfl
@[simp] theorem raise_trace (k : Condition) : (raise k s).trace = s.trace ++ [.result k.code 0] := rfl
@[simp] theorem raise_past (k : Condition) : (raise k s).past = s.past := rfl

@[simp] theorem appendEntry_cfg (e : Entry) : (appendEntry e s).cfg = s.cfg := rfl
@[simp] theorem appendEntry_tx (e : Entry) : (appendEntry e s).tx = { s.tx with buf := s.tx.buf ++ [e] } := rfl
@[simp] theorem appendEntry_rx (e : Entry) : (appendEntry e s).rx = s.rx := rfl
@[simp] theorem appendEntry_status (e : Entry) : (appendEntry e s).status = s.status := rfl
@[simp] theorem appendEntry_inReset (e : Entry) : (appendEntry e s).inReset = s.inReset := rfl
@[simp] theorem appendEntry_now (e : Entry) : (appendEntry e s).now = s.now := rfl
@[simp] theorem appendEntry_inputs (e : Entry) : (appendEntry e s).inputs = s.inputs := rfl
@[simp] theorem appendEntry_pc (e : Entry) : (appendEntry e s).pc = s.pc := rfl
@[simp] theorem appendEntry_trace (e : Entry) : (appendEntry e s).trace = s.trace := rfl
@[simp] theorem appendEntry_past (e : Entry) : (appendEntry e s).past = s.past := rfl

@[simp] theorem dropOldest_cfg (r : Nat) : (dropOldest r s).cfg = s.cfg := rfl
@[simp] theorem dropOldest_tx (r : Nat) : (dropOldest r s).tx = { s.tx with buf := s.tx.buf.drop r } := rfl
@[simp] theorem dropOldest_rx (r : Nat) : (dropOldest r s).rx = s.rx := rfl
@[simp] theorem dropOldest_status (r : Nat) : (dropOldest r s).status = s.status := rfl
@[simp] theorem dropOldest_inReset (r : Nat) : (dropOldest r s).inReset = s.inReset := rfl
@[simp] theorem dropOldest_now (r : Nat) : (dropOldest r s).now = s.now := rfl
@[simp] theorem dropOldest_inputs (r : Nat) : (dropOldest r s).inputs = s.inputs := rfl
@[simp] theorem dropOldest_pc (r : Nat) : (dropOldest r s).pc = s.pc := rfl
@[simp] theorem dropOldest_trace (r : Nat) : (dropOldest r s).trace = s.trace := rfl
@[simp] theorem dropOldest_past (r : Nat) : (dropOldest r s).past = s.past := rfl

@[simp] theorem clearBuffer_cfg : (clearBuffer s).cfg = s.cfg := rfl
@[simp] theorem clearBuffer_tx : (clearBuffer s).tx = { s.tx with buf := [] } := rfl
@[simp] theorem clearBuffer_rx : (clearBuffer s).rx = s.rx := rfl
@[simp] theorem clearBuffer_status : (clearBuffer s).status = s.status := rfl
@[simp] theorem clearBuffer_inReset : (clearBuffer s).inReset = s.inReset := rfl
@[simp] theorem clearBuffer_now : (clearBuffer s).now = s.now := rfl
@[simp] theorem clearBuffer_inputs : (clearBuffer s).inputs = s.inputs := rfl
@[simp] theorem clearBuffer_pc : (clearBuffer s).pc = s.pc := rfl
@[simp] theorem clearBuffer_trace : (clearBuffer s).trace = s.trace := rfl
@[simp] theorem clearBuffer_past : (clearBuffer s).past = s.past := rfl

@[simp] theorem setLastAcked_cfg (n : Nat) : (setLastAcked n s).cfg = s.cfg := rfl
@[simp] theorem setLastAcked_tx (n : Nat) : (setLastAcked n s).tx = { s.tx with lastAcked := n } := rfl
@[simp] theorem setLastAcked_rx (n : Nat) : (setLastAcked n s).rx = s.rx := rfl
@[simp] theorem setLastAcked_status (n : Nat) : (setLastAcked n s).status = s.status := rfl
@[simp] theorem setLastAcked_inReset (n : Nat) : (setLastAcked n s).inReset = s.inReset := rfl
@[simp] theorem setLastAcked_now (n : Nat) : (setLastAcked n s).now = s.now := rfl
@[simp] theorem setLastAcked_inputs (n : Nat) : (setLastAcked n s).inputs = s.inputs := rfl
@[simp] theorem setLastAcked_pc (n : Nat) : (setLastAcked n s).pc = s.pc := rfl
@[simp] theorem setLastAcked_trace (n : Nat) : (setLastAcked n s).trace = s.trace := rfl
@[simp] theorem setLastAcked_past (n : Nat) : (setLastAcked n s).past = s.past := rfl

@[simp] theorem countFrame_cfg (n : Nat) : (countFrame n s).cfg = s.cfg := rfl
@[simp] theorem countFrame_tx (n : Nat) : (countFrame n s).tx = s.tx := rfl
@[simp] theorem countFrame_rx (n : Nat) : (countFrame n s).rx = { s.rx with lastRecv := n, unacked := s.rx.unacked + 1 } := rfl
@[simp] theorem countFrame_status (n : Nat) : (countFrame n s).status = s.status := rfl
@[simp] theorem countFrame_inReset (n : Nat) : (countFrame n s).inReset = s.inReset := rfl
@[simp] theorem countFrame_now (n : Nat) : (countFrame n s).now = s.now := rfl
@[simp] theorem countFrame_inputs (n : Nat) : (countFrame n s).inputs = s.inputs := rfl
@[simp] theorem countFrame_pc (n : Nat) : (countFrame n s).pc = s.pc := rfl
@[simp] theorem countFrame_trace (n : Nat) : (countFrame n s).trace = s.trace := rfl
@[simp] theorem countFrame_past (n : Nat) : (countFrame n s).past = s.past := rfl

@[simp] theorem sendAck_cfg (n : Nat) : (sendAck n s).cfg = s.cfg := rfl
@[simp] theorem sendAck_tx (n : Nat) : (sendAck n s).tx = s.tx := rfl
@[simp] theorem sendAck_rx (n : Nat) : (sendAck n s).rx = { s.rx with unacked := 0 } := rfl
@[simp] theorem sendAck_status (n : Nat) : (sendAck n s).status = s.status := rfl
@[simp] theorem sendAck_inReset (n : Nat) : (sendAck n s).inReset = s.inReset := rfl
@[simp] theorem sendAck_now (n : Nat) : (sendAck n s).now = s.now := rfl
@[simp] theorem sendAck_inputs (n : Nat) : (sendAck n s).inputs = s.inputs := rfl
@[simp] theorem sendAck_pc (n : Nat) : (sendAck n s).pc = s.pc := rfl
@[simp] theorem sendAck_trace (n : Nat) : (sendAck n s).trace = s.trace ++ [.ack n] := rfl
@[simp] theorem sendAck_past (n : Nat) : (sendAck n s).past = s.past := rfl

@[simp] theorem pushDeadline_cfg : (pushDeadline s).cfg = s.cfg := rfl
@[simp] theorem pushDeadline_tx : (pushDeadline s).tx = s.tx := rfl
@[simp] theorem pushDeadline_rx : (pushDeadline s).rx = { s.rx with nextAck := timeAdd s.cfg s.now s.cfg.ackIntervalMs } := rfl
@[simp] theorem pushDeadline_status : (pushDeadline s).status = s.status := rfl
@[simp] theorem pushDeadline_inReset : (pushDeadline s).inReset = s.inReset := rfl
@[simp] theorem pushDeadline_now : (pushDeadline s).now = s.now := rfl
@[simp] theorem pushDeadline_inputs : (pushDeadline s).inputs = s.inputs := rfl
@[simp] theorem pushDeadline_pc : (pushDeadline s).pc = s.pc := rfl
@[simp] theorem pushDeadline_trace : (pushDeadline s).trace = s.trace := rfl
@[simp] theorem pushDeadline_past : (pushDeadline s).past = s.past := rfl

@[simp] theorem accept_cfg (n : Nat) : (accept n s).cfg = s.cfg := rfl
@[simp] theorem accept_tx (n : Nat) : (accept n s).tx = s.tx := rfl
@[simp] theorem accept_rx (n : Nat) : (accept n s).rx = s.rx := rfl
@[simp] theorem accept_status (n : Nat) : (accept n s).status = s.status := rfl
@[simp] theorem accept_inReset (n : Nat) : (accept n s).inReset = s.inReset := rfl
@[simp] theorem accept_now (n : Nat) : (accept n s).now = timeWrap s.cfg n := rfl
@[simp] theorem accept_inputs (n : Nat) : (accept n s).inputs = s.inputs := rfl
@[simp] theorem accept_pc (n : Nat) : (accept n s).pc = s.pc + 1 := rfl
@[simp] theorem accept_trace (n : Nat) : (accept n s).trace = s.trace := rfl
@[simp] theorem accept_past (n : Nat) : (accept n s).past = s.past := rfl

@[simp] theorem assertReset_cfg : (assertReset s).cfg = s.cfg := rfl
@[simp] theorem assertReset_tx : (assertReset s).tx = s.tx := rfl
@[simp] theorem assertReset_rx : (assertReset s).rx = s.rx := rfl
@[simp] theorem assertReset_status : (assertReset s).status = s.status := rfl
@[simp] theorem assertReset_inReset : (assertReset s).inReset = true := rfl
@[simp] theorem assertReset_now : (assertReset s).now = s.now := rfl
@[simp] theorem assertReset_inputs : (assertReset s).inputs = s.inputs := rfl
@[simp] theorem assertReset_pc : (assertReset s).pc = s.pc := rfl
@[simp] theorem assertReset_trace : (assertReset s).trace = s.trace := rfl
@[simp] theorem assertReset_past : (assertReset s).past = s.past := rfl

end Sys2Proof.Machine
end

