-- ==== Sys2Proof/Laws/Ops.lean ====
section
/-! SUPPORT. For each shared operation and each meaning, one lemma that says everything it can do; later proofs cite these and
do not unfold the meanings. -/

namespace Sys2Proof.Machine

/-! ## The ports of an event list -/

@[simp] theorem resultPort_nil : resultPort [] = [] := rfl
@[simp] theorem ackSeqs_nil : ackSeqs [] = [] := rfl
@[simp] theorem frameSeqs_nil : frameSeqs [] = [] := rfl

@[simp] theorem resultPort_append (a b : List Event) : resultPort (a ++ b) = resultPort a ++ resultPort b :=
  List.filterMap_append
@[simp] theorem ackSeqs_append (a b : List Event) : ackSeqs (a ++ b) = ackSeqs a ++ ackSeqs b :=
  List.filterMap_append
@[simp] theorem frameSeqs_append (a b : List Event) : frameSeqs (a ++ b) = frameSeqs a ++ frameSeqs b :=
  List.filterMap_append

@[simp] theorem resultPort_frame (n m len : Nat) (d : List Byte) (es : List Event) :
    resultPort (.frame n m len d :: es) = resultPort es := rfl
@[simp] theorem resultPort_ack (n : Nat) (es : List Event) : resultPort (.ack n :: es) = resultPort es := rfl
@[simp] theorem resultPort_space (es : List Event) : resultPort (.space :: es) = resultPort es := rfl
@[simp] theorem resultPort_result (k : ResultCode) (v : Word32) (es : List Event) :
    resultPort (.result k v :: es) = (k.bits, v) :: resultPort es := rfl
@[simp] theorem ackSeqs_frame (n m len : Nat) (d : List Byte) (es : List Event) :
    ackSeqs (.frame n m len d :: es) = ackSeqs es := rfl
@[simp] theorem ackSeqs_ack (n : Nat) (es : List Event) : ackSeqs (.ack n :: es) = n :: ackSeqs es := rfl
@[simp] theorem ackSeqs_space (es : List Event) : ackSeqs (.space :: es) = ackSeqs es := rfl
@[simp] theorem ackSeqs_result (k : ResultCode) (v : Word32) (es : List Event) :
    ackSeqs (.result k v :: es) = ackSeqs es := rfl
@[simp] theorem frameSeqs_frame (n m len : Nat) (d : List Byte) (es : List Event) :
    frameSeqs (.frame n m len d :: es) = m :: frameSeqs es := rfl
@[simp] theorem frameSeqs_ack (n : Nat) (es : List Event) : frameSeqs (.ack n :: es) = frameSeqs es := rfl
@[simp] theorem frameSeqs_space (es : List Event) : frameSeqs (.space :: es) = frameSeqs es := rfl
@[simp] theorem frameSeqs_result (k : ResultCode) (v : Word32) (es : List Event) :
    frameSeqs (.result k v :: es) = frameSeqs es := rfl

/-! ## The frames of a retransmission -/

theorem framesFrom_eq_mapIdx (c : Config) (last i : Nat) (es : List Entry) :
    framesFrom c last i es = es.mapIdx (fun j e => frameOf c last (i + j) e) := by
  induction es generalizing i with
  | nil => rfl
  | cons e es ih => simp [framesFrom, ih, List.mapIdx_cons, Nat.add_assoc, Nat.add_comm 1]

@[simp] theorem resultPort_framesFrom (c : Config) (last i : Nat) (es : List Entry) :
    resultPort (framesFrom c last i es) = [] := by
  induction es generalizing i with
  | nil => rfl
  | cons e es ih => simp [framesFrom, frameOf, ih]

@[simp] theorem ackSeqs_framesFrom (c : Config) (last i : Nat) (es : List Entry) :
    ackSeqs (framesFrom c last i es) = [] := by
  induction es generalizing i with
  | nil => rfl
  | cons e es ih => simp [framesFrom, frameOf, ih]

theorem frameSeqs_framesFrom (c : Config) (last i : Nat) (es : List Entry) :
    frameSeqs (framesFrom c last i es) = (List.range' i es.length).map (seqOfPos c last) := by
  induction es generalizing i with
  | nil => rfl
  | cons e es ih => simp [framesFrom, frameOf, ih, List.range'_succ]

/-- A retransmitted frame is that of an entry of the buffer, under a number of its position. -/
theorem mem_framesFrom {c : Config} {last i : Nat} {es : List Entry} {ev : Event} (h : ev ∈ framesFrom c last i es) :
    ∃ e ∈ es, ∃ j, ev = frameOf c last j e := by
  induction es generalizing i with
  | nil => simp [framesFrom] at h
  | cons e es ih =>
    rcases List.mem_cons.1 h with rfl | h
    · exact ⟨e, by simp, i, rfl⟩
    · obtain ⟨e', he, j, rfl⟩ := ih h
      exact ⟨e', by simp [he], j, rfl⟩

/-! ## The meanings -/

/-- Everything WRITE can do (R85, R86). -/
theorem execWrite_cases (sid : Nat) (chunk : List Byte) (s : State) :
    (s.txCount = s.cfg.maxUnacked ∧ execWrite sid chunk s = .next (raise .txFull s)) ∨
    (s.txCount ≠ s.cfg.maxUnacked ∧ trimLen chunk = 0 ∧ execWrite sid chunk s = .next (reply 0 s)) ∨
    (s.txCount ≠ s.cfg.maxUnacked ∧ trimLen chunk ≠ 0 ∧ s.cfg.maxFrame < trimLen chunk ∧
      execWrite sid chunk s = .next (raise .txFatalOversize s)) ∨
    (s.txCount ≠ s.cfg.maxUnacked ∧ trimLen chunk ≠ 0 ∧ trimLen chunk ≤ s.cfg.maxFrame ∧
      execWrite sid chunk s = .next (reply 0 (sendFrame
        { sid := sid
          len := frameRound s.cfg (trimLen chunk)
          data := padPayload chunk (trimLen chunk) (frameRound s.cfg (trimLen chunk)) } s))) := by
  unfold execWrite
  by_cases h1 : s.txCount = s.cfg.maxUnacked
  · simp [h1]
  · by_cases h2 : trimLen chunk = 0
    · simp [h1, h2]
    · by_cases h3 : s.cfg.maxFrame < trimLen chunk
      · simp [h1, h2, h3]
      · simp [h1, h2, h3, Nat.le_of_not_lt h3]

/-- Everything NOTIFY_ACK can do before its result: exactly the four cases of R91, in the order of R96. -/
theorem applyAck_cases (seq : Nat) (s : State) :
    (seq = 0 ∧ applyAck seq s = fullReset s) ∨
    (seq ≠ 0 ∧ seq = s.tx.lastAcked ∧ applyAck seq s = retransmitAll s) ∨
    (seq ≠ 0 ∧ seq ≠ s.tx.lastAcked ∧ s.txCount ≤ seqDist s.cfg s.tx.lastAcked seq - 1 ∧
      applyAck seq s = recoverBadAck seq s) ∨
    (seq ≠ 0 ∧ seq ≠ s.tx.lastAcked ∧ seqDist s.cfg s.tx.lastAcked seq - 1 < s.txCount ∧
      applyAck seq s = releaseThrough seq (seqDist s.cfg s.tx.lastAcked seq - 1) s) := by
  unfold applyAck
  by_cases h1 : seq = 0
  · simp [h1]
  · by_cases h2 : seq = s.tx.lastAcked
    · simp [h1, ← h2]
    · by_cases h3 : s.txCount ≤ seqDist s.cfg s.tx.lastAcked seq - 1
      · simp [h1, h2, h3]
      · simp [h1, h2, h3, Nat.lt_of_not_le h3]

/-- Everything CHECK_PACKET can do (R110). -/
theorem execCheckPacket_cases (seq : Nat) (s : State) :
    (seq ≠ seqSucc s.cfg s.rx.lastRecv ∧ execCheckPacket seq s = .next (reply 0 s)) ∨
    (seq = seqSucc s.cfg s.rx.lastRecv ∧ s.rx.unacked + 1 < s.cfg.maxBeforeAck ∧
      execCheckPacket seq s = .next (reply 1 (pushDeadline (countFrame seq s)))) ∨
    (seq = seqSucc s.cfg s.rx.lastRecv ∧ s.cfg.maxBeforeAck ≤ s.rx.unacked + 1 ∧
      execCheckPacket seq s = .next (reply 1 (pushDeadline (sendAck seq (countFrame seq s))))) := by
  unfold execCheckPacket batchAck
  by_cases h1 : seq = seqSucc s.cfg s.rx.lastRecv
  · by_cases h2 : s.cfg.maxBeforeAck ≤ s.rx.unacked + 1
    · simp [h1, h2]
    · simp [h1, h2, Nat.lt_of_not_le h2]
  · simp [h1]

/-- Everything HANDLE_TIMER can do (R115). -/
theorem execHandleTimer_cases (s : State) :
    (timeReached s.cfg s.now s.rx.nextAck ∧ execHandleTimer s =
      .next (reply (BitVec.ofNat 32 s.cfg.ackIntervalMs) (pushDeadline (sendAck s.rx.lastRecv s)))) ∨
    (¬ timeReached s.cfg s.now s.rx.nextAck ∧ execHandleTimer s =
      .next (reply (BitVec.ofNat 32 (max 1 (timeRemaining s.cfg s.now s.rx.nextAck))) s)) := by
  unfold execHandleTimer
  by_cases h : timeReached s.cfg s.now s.rx.nextAck
  · exact .inl ⟨h, if_pos h⟩
  · exact .inr ⟨h, if_neg h⟩

/-- What one command does to the part of the state that is neither scheduler: its events go to the end of the trace, one RESULT
and the last, and the rest stands (R8, R26, R60). -/
structure Ran (s t : State) : Prop where
  cfg : t.cfg = s.cfg
  inReset : t.inReset = s.inReset
  now : t.now = s.now
  inputs : t.inputs = s.inputs
  pc : t.pc = s.pc
  past : t.past = s.past
  trace : ∃ evs k v, t.trace = s.trace ++ evs ++ [.result k v] ∧ resultPort evs = []
  txFatal : s.status.txFatal = true → t.status.txFatal = true
  badAck : s.status.badAck = true → t.status.badAck = true
  cmdIll : s.status.cmdIll = true → t.status.cmdIll = true

theorem ran_raise (k : Condition) (s : State) : Ran s (raise k s) := by
  refine ⟨rfl, rfl, rfl, rfl, rfl, rfl, ⟨[], k.code, 0, by simp, rfl⟩, ?_, ?_, ?_⟩ <;>
    cases k <;> simp +contextual [Condition.mark]

theorem ran_reply (v : Word32) (s : State) : Ran s (reply v s) :=
  ⟨rfl, rfl, rfl, rfl, rfl, rfl, ⟨[], .ok, v, by simp, rfl⟩, id, id, id⟩

/-- Every command answers a next state and has run so. -/
theorem exec_ran (i : Instr) (s : State) : ∃ t, exec i s = .next t ∧ Ran s t := by
  cases i with
  | write sid chunk =>
    rcases execWrite_cases sid chunk s with ⟨-, h⟩ | ⟨-, -, h⟩ | ⟨-, -, -, h⟩ | ⟨-, -, -, h⟩
    · exact ⟨_, h, ran_raise _ _⟩
    · exact ⟨_, h, ran_reply _ _⟩
    · exact ⟨_, h, ran_raise _ _⟩
    · exact ⟨_, h, rfl, rfl, rfl, rfl, rfl, rfl,
        ⟨[frameOf s.cfg s.tx.lastAcked s.txCount _], .ok, 0, by simp [sendFrame]; rfl, rfl⟩, id, id, id⟩
  | notifyAck seq =>
    refine ⟨_, rfl, ?_⟩
    rcases applyAck_cases seq s with ⟨-, h⟩ | ⟨-, -, h⟩ | ⟨-, -, -, h⟩ | ⟨-, -, -, h⟩ <;> rw [h]
    · exact ⟨rfl, rfl, rfl, rfl, rfl, rfl, ⟨[.space], .ok, 0, by simp [fullReset], rfl⟩, id, id, id⟩
    · exact ⟨rfl, rfl, rfl, rfl, rfl, rfl,
        ⟨framesFrom s.cfg s.tx.lastAcked 0 s.tx.buf, .ok, 0, by simp [retransmitAll], by simp⟩, id, id, id⟩
    · exact ⟨rfl, rfl, rfl, rfl, rfl, rfl, ⟨[.space], .ok, 0, by simp [recoverBadAck], rfl⟩, id, fun _ => rfl, id⟩
    · exact ⟨rfl, rfl, rfl, rfl, rfl, rfl, ⟨[.space], .ok, 0, by simp [releaseThrough], rfl⟩, id, id, id⟩
  | checkPacket seq =>
    rcases execCheckPacket_cases seq s with ⟨-, h⟩ | ⟨-, -, h⟩ | ⟨-, -, h⟩
    · exact ⟨_, h, ran_reply _ _⟩
    · exact ⟨_, h, rfl, rfl, rfl, rfl, rfl, rfl, ⟨[], .ok, 1, by simp, rfl⟩, id, id, id⟩
    · exact ⟨_, h, rfl, rfl, rfl, rfl, rfl, rfl, ⟨[.ack seq], .ok, 1, by simp, rfl⟩, id, id, id⟩
  | handleTimer =>
    rcases execHandleTimer_cases s with ⟨-, h⟩ | ⟨-, h⟩
    · exact ⟨_, h, rfl, rfl, rfl, rfl, rfl, rfl, ⟨[.ack s.rx.lastRecv], .ok, _, by simp; rfl, rfl⟩, id, id, id⟩
    · exact ⟨_, h, ran_reply _ _⟩

/-! ## Packets and steps -/

/-- Everything one accepted packet can do: its command, or the IllegalCommand condition (R59). -/
theorem runPacket_cases (p : List Byte) (s : State) :
    (∃ i, decode s.cfg p = .command i ∧ runPacket p s = exec i s) ∨
    ((∃ why, decode s.cfg p = .illegal why) ∧ runPacket p s = .next (raise .illegalCommand s)) := by
  unfold runPacket
  cases h : decode s.cfg p with
  | command i => exact .inl ⟨i, rfl, rfl⟩
  | illegal why => exact .inr ⟨⟨why, rfl⟩, rfl⟩

theorem runPacket_ran (p : List Byte) (s : State) : ∃ t, runPacket p s = .next t ∧ Ran s t := by
  rcases runPacket_cases p s with ⟨i, -, h⟩ | ⟨-, h⟩
  · obtain ⟨t, ht, hr⟩ := exec_ran i s
    exact ⟨t, h.trans ht, hr⟩
  · exact ⟨_, h, ran_raise _ _⟩

/-- The events of a command before its RESULT, of which a cut command has let some through (R155). -/
theorem eventsBeforeCut_eq {s t : State} {evs : List Event} {k : ResultCode} {v : Word32} (n : Nat)
    (h : t.trace = s.trace ++ evs ++ [.result k v]) : eventsBeforeCut n s t = evs.take n := by
  rw [eventsBeforeCut, h, List.append_assoc, List.drop_left, List.dropLast_concat]

/-- Everything a step of a legally configured block can do: nothing, a command or an illegal packet, the assertion of reset
(after some events of a command it cuts), the release of reset. -/
theorem step_cases {s t : State} (hst : step s = .next t) :
    s.cfg.Legal ∧
    ((s.inputs = [] ∧ t = s) ∨
     (∃ inp rest, s.inputs = inp :: rest ∧ t = { s with inputs := rest }) ∨
     (∃ p now rest, s.inputs = .packet p now :: rest ∧ s.inReset = false ∧
        runPacket p (accept now { s with inputs := rest }) = .next t) ∨
     (∃ inp rest evs, s.inputs = inp :: rest ∧ (∀ n, inp ≠ .resetRelease n) ∧
        t = { s with inputs := rest, inReset := true, trace := s.trace ++ evs } ∧
        (evs = [] ∨ ∃ p now u n, s.inReset = false ∧ runPacket p (accept now { s with inputs := rest }) = .next u ∧
          evs = eventsBeforeCut n { s with inputs := rest } u)) ∨
     (∃ now rest, s.inputs = .resetRelease now :: rest ∧ s.inReset = true ∧
        t = { State.hardwareReset s.cfg now with inputs := rest, past := s.past ++ s.trace })) := by
  unfold step at hst
  split at hst
  · rename_i hl
    refine ⟨hl, ?_⟩
    split at hst
    · cases hst; exact .inl ⟨‹_›, rfl⟩
    · rename_i inp rest hin
      right
      cases inp with
      | packet p now =>
        simp only [takeInput, takePacket] at hst
        split at hst
        · cases hst; exact .inl ⟨_, rest, hin, rfl⟩
        · exact .inr (.inl ⟨p, now, rest, hin, Bool.eq_false_of_not_eq_true ‹_›, hst⟩)
      | resetAssert =>
        cases hst
        exact .inr (.inr (.inl ⟨_, rest, [], hin, by simp, by simp [assertReset], .inl rfl⟩))
      | resetDuring p now k =>
        right; right; left
        simp only [takeInput, cutCommand, takePacket] at hst
        split at hst
        · rename_i u hu
          cases hst
          refine ⟨_, rest, _, hin, by simp, rfl, ?_⟩
          split at hu
          · cases hu
            left; simp [eventsBeforeCut]
          · exact .inr ⟨p, now, u, k, Bool.eq_false_of_not_eq_true ‹_›, hu, rfl⟩
        · simp at hst
        · simp at hst
      | resetRelease now =>
        simp only [takeInput, releaseReset] at hst
        split at hst
        · cases hst
          exact .inr (.inr (.inr ⟨now, rest, hin, by simpa using ‹_ = true›, rfl⟩))
        · cases hst; exact .inl ⟨_, rest, hin, rfl⟩
  · simp at hst

end Sys2Proof.Machine
end

