-- ==== Sys2Proof/Laws/PerInstr.lean ====
section
/-! SUPPORT. The opcode table row by row (R66): the header of a well-formed command has the fixed bits of its row, and its packet
has the row's length. -/

namespace Sys2Proof.Laws.HeaderMatches

open Sys2Proof Sys2Proof.Machine

/-- The `mask` column of R66. -/
def tableMask : Instr → Header
  | .write _ _ => 0xFF000000
  | .notifyAck _ => 0xFFFF0000
  | .checkPacket _ => 0xFFFF0000
  | .handleTimer => 0xFFFFFFFF

/-- The `match` column of R66. -/
def tableMatch : Instr → Header
  | .write _ _ => 0x00000000
  | .notifyAck _ => 0x40000000
  | .checkPacket _ => 0x80000000
  | .handleTimer => 0xC0000000

/-- The `packet length` column of R66. -/
def tableLength : Instr → Nat
  | .write _ chunk => 4 + chunk.length
  | .notifyAck _ => 4
  | .checkPacket _ => 4
  | .handleTimer => 4

/-- A well-formed command's packet fits its row of R66. -/
def Statement (i : Instr) : Prop :=
  ∀ c : Config, c.Legal → i.Legal c → i.header &&& tableMask i = tableMatch i ∧ (encode i).length = tableLength i

theorem and_top8 (h : Header) : h &&& (0xFF000000 : Header) = (h >>> 24) <<< 24 := by
  ext i hi
  interval_cases i <;> simp

theorem and_top16 (h : Header) : h &&& (0xFFFF0000 : Header) = (h >>> 16) <<< 16 := by
  ext i hi
  interval_cases i <;> simp

theorem top_packHeader (op : Op) {sid arg : Nat} (hs : sid < 256) (ha : arg < 65536) :
    packHeader op sid arg >>> 24 = BitVec.ofNat 32 (64 * op.bits.toNat) := by
  apply BitVec.eq_of_toNat_eq
  have := op.bits.isLt
  rw [BitVec.toNat_ushiftRight, packHeader_toNat op hs ha, Nat.shiftRight_eq_div_pow, BitVec.toNat_ofNat]
  omega

theorem write (sid : Nat) (chunk : List Byte) : Statement (.write sid chunk) := by
  intro c h hi
  obtain ⟨hs, ha⟩ := Instr.Legal.write_fits h hi
  refine ⟨?_, length_encode _⟩
  show packHeader .write sid chunk.length &&& (0xFF000000 : Header) = 0x00000000
  rw [and_top8, top_packHeader .write hs ha]
  rfl

/-- The upper half of a header that carries one sequence number. -/
theorem upper_seqHeader (op : Op) {seq : Nat} (ha : seq < 65536) :
    packHeader op 0 seq >>> 16 = BitVec.ofNat 32 (16384 * op.bits.toNat) := by
  apply BitVec.eq_of_toNat_eq
  have := op.bits.isLt
  rw [BitVec.toNat_ushiftRight, packHeader_toNat op (by decide) ha, Nat.shiftRight_eq_div_pow, BitVec.toNat_ofNat]
  omega

theorem notifyAck (seq : Nat) : Statement (.notifyAck seq) := by
  intro c h hi
  have h16 := seqMod_le_65536 h
  have hq : seq < c.seqMod := by simpa [Instr.Legal, Instr.wf] using hi
  refine ⟨?_, length_encode _⟩
  show packHeader .notifyAck 0 seq &&& (0xFFFF0000 : Header) = 0x40000000
  rw [and_top16, upper_seqHeader .notifyAck (by omega)]
  rfl

theorem checkPacket (seq : Nat) : Statement (.checkPacket seq) := by
  intro c h hi
  have h16 := seqMod_le_65536 h
  have hq : seq < c.seqMod := by simpa [Instr.Legal, Instr.wf] using hi
  refine ⟨?_, length_encode _⟩
  show packHeader .checkPacket 0 seq &&& (0xFFFF0000 : Header) = 0x80000000
  rw [and_top16, upper_seqHeader .checkPacket (by omega)]
  rfl

theorem handleTimer : Statement .handleTimer :=
  fun _ _ _ => ⟨by decide, rfl⟩

end Sys2Proof.Laws.HeaderMatches
end

