-- ==== Sys2Proof/Laws/Run.lean ====
section
/-! SUPPORT. The induction over runs (R176), once. -/

namespace Sys2Proof.Machine

/-- What every hardware reset of a legal configuration establishes and every step keeps holds of every state of a run. -/
theorem State.Reachable.of_kept {P : State → Prop}
    (hreset : ∀ c now inputs, c.Legal → P { State.hardwareReset c now with inputs := inputs })
    (hstep : ∀ s t, P s → Machine.step s = .next t → P t) {s : State} (h : State.Reachable s) : P s := by
  induction h with
  | start c now inputs hc => exact hreset c now inputs hc
  | step s t _ hst ih => exact hstep s t ih hst

end Sys2Proof.Machine
end

