-- ==== Sys2Proof/Machine/Asm.lean ====
section
/-! DEFINITION. The textual form of a command (R64, log 21): mnemonic, decimal operands, chunk bytes in hexadecimal. -/

namespace Sys2Proof.Machine

/-- One hexadecimal digit. -/
def hexDigit (d : Nat) : Char := "0123456789ABCDEF".toList.getD d '?'

/-- A byte as two hexadecimal digits. -/
def hexByte (b : Byte) : List Char := [hexDigit (b.toNat / 16), hexDigit (b.toNat % 16)]

/-- The chunk bytes, each after one space. -/
def asmBytes : List Byte → List Char
  | [] => []
  | b :: bs => ' ' :: (hexByte b ++ asmBytes bs)

/-- The line of a command sampled at `now`; `@<now>` is left off WRITE and NOTIFY_ACK, which do not use it (R64). -/
def asmLine (i : Instr) (now : Nat) : List Char :=
  match i with
  | .write sid chunk => "WRITE ".toList ++ Nat.toDigits 10 sid ++ ",".toList ++ asmBytes chunk
  | .notifyAck seq => "NOTIFY_ACK ".toList ++ Nat.toDigits 10 seq
  | .checkPacket seq => "CHECK_PACKET ".toList ++ Nat.toDigits 10 seq ++ " @".toList ++ Nat.toDigits 10 now
  | .handleTimer => "HANDLE_TIMER @".toList ++ Nat.toDigits 10 now

end Sys2Proof.Machine
end

