-- ==== Sys2Proof/Tests/Slice0.lean ====
section
/-! SUPPORT. Tests. Expected results are the spec's own vectors (95_test_vectors.md, `V-...`), its worked encodings (R67) or hand
calculation from the rule named. The `test_witness_...` theorems show, for each statement that has hypotheses, a concrete state
and operands that meet all of them, at the boundaries of each clause. -/

namespace Sys2Proof.Tests

open Sys2Proof Sys2Proof.Machine

/-! ## Helpers -/

/-- The next state of an answer. -/
def after : Answer → Option State
  | .next s => some s
  | .fault _ => none
  | .refused _ => none

/-- An entry whose data is as long as its length says. -/
def ent (sid : Nat) (data : List Byte) : Entry := { sid := sid, len := data.length, data := data }

/-- A running block between commands, with the given TX state. -/
def txAt (c : Config) (lastAcked : Nat) (buf : List Entry) : State :=
  { State.hardwareReset c 0 with tx := { lastAcked := lastAcked, buf := buf } }

/-- A running block between commands, with the given RX state and the sampled `now`. -/
def rxAt (c : Config) (lastRecv unacked nextAck now : Nat) : State :=
  { State.hardwareReset c 0 with rx := { lastRecv := lastRecv, unacked := unacked, nextAck := nextAck }, now := now }

/-- CFG_SMALL with TX_BADACK_ADOPT = 0. -/
def smallNoAdopt : Config := { Config.small with txBadackAdopt := false }

/-- The state before of V-NA-1, V-NA-4, V-NA-7, V-NA-9, V-NA-10: entries 10, 11, 12. -/
def at9 : State := txAt Config.ref 9 [ent 1 [0x61], ent 2 [0x62, 0x63], ent 1 [0x64]]

/-- The state before of V-NA-6: entries 65535, 1, 2. -/
def at65534 : State := txAt Config.ref 65534 [ent 1 [0x61], ent 2 [0x62, 0x63], ent 1 [0x64]]

/-- The state before of V-WR-9 and V-NA-14: a full buffer, entries 6, 7, 1, 2. -/
def fullAt5 : State := txAt Config.small 5 [ent 0 [0x61], ent 0 [0x62], ent 0 [0x63], ent 0 [0x64]]

/-- `at9` in mid run: the receiver one frame short of a batch at 65535 (V-CP-2, V-CP-10). -/
def busy : State :=
  { at9 with rx := { lastRecv := 65535, unacked := 3, nextAck := 500 }, now := 450, pc := 7, trace := [.result .ok 0] }

/-! ## Well-formedness: an ill-formed term for each check (R53 to R56, R5, R6) -/

theorem test_wf_refuses_wide_sid : (Instr.write 256 []).wf Config.ref = false ∧ (Instr.write 4 []).wf Config.small = false := by
  decide

theorem test_wf_refuses_long_chunk : (Instr.write 0 (zeros 17)).wf Config.small = false := by decide

theorem test_wf_refuses_wide_ack : (Instr.notifyAck 65536).wf Config.ref = false ∧ (Instr.notifyAck 8).wf Config.small = false := by
  decide

theorem test_wf_refuses_wide_seq : (Instr.checkPacket 65536).wf Config.ref = false ∧ (Instr.checkPacket 8).wf Config.small = false := by
  decide

theorem test_wf_takes_the_greatest_operands :
    (Instr.write 3 (zeros 16)).wf Config.small = true ∧ (Instr.notifyAck 7).wf Config.small = true ∧
    (Instr.checkPacket 7).wf Config.small = true ∧ Instr.handleTimer.wf Config.small = true := by decide

theorem test_config_reference_legal : Config.ref.Legal ∧ Config.small.Legal ∧ smallNoAdopt.Legal := by decide

theorem test_config_refuses_each_bound :
    ∀ c ∈ ([
      { Config.ref with seqW := 17 }, { Config.small with seqW := 1, maxUnacked := 0 },
      { Config.small with maxUnacked := 7 }, { Config.small with maxUnacked := 0 },
      { Config.small with frameSizes := [] }, { Config.small with frameSizes := [0, 8] },
      { Config.small with frameSizes := [2, 2] }, { Config.ref with frameSizes := [256], inMax := 256 },
      { Config.small with streamIdW := 0 }, { Config.small with streamIdW := 9 },
      { Config.small with inMax := 7 }, { Config.small with inMax := 65536 },
      { Config.small with maxBeforeAck := 0 }, { Config.small with maxBeforeAck := 65536 },
      { Config.small with ackIntervalMs := 0 }, { Config.small with ackIntervalMs := 2147483648 },
      { Config.small with timeW := 7 }, { Config.small with timeW := 33 }] : List Config),
      ¬ c.Legal := by decide

/-! ## Decoding (R67, V-DEC) -/

theorem test_decode_write :
    decode Config.ref [0x04, 0x00, 0x01, 0x00, 0x48, 0x69, 0x00, 0x00] = .command (.write 1 [0x48, 0x69, 0x00, 0x00]) ∧
    decode Config.small [0x01, 0x00, 0x03, 0x00, 0x61] = .command (.write 3 [0x61]) := by decide

theorem test_decode_notifyAck :
    decode Config.ref [0xFF, 0xFF, 0x00, 0x40] = .command (.notifyAck 65535) ∧
    decode Config.small [0x07, 0x00, 0x00, 0x40] = .command (.notifyAck 7) := by decide

theorem test_decode_checkPacket :
    decode Config.ref [0x01, 0x00, 0x00, 0x80] = .command (.checkPacket 1) ∧
    decode Config.ref [0x00, 0x00, 0x00, 0x80] = .command (.checkPacket 0) := by decide

theorem test_decode_handleTimer : decode Config.ref [0x00, 0x00, 0x00, 0xC0] = .command .handleTimer := by decide

/-- V-DEC-10 to V-DEC-22: the first condition of R59 that holds, named. -/
theorem test_decode_illegal_ref :
    decode Config.ref [0x00, 0x00, 0x00] = .illegal .shortPacket ∧ decode Config.ref [] = .illegal .shortPacket ∧
    decode Config.ref [0x00, 0x00, 0x00, 0x01] = .illegal .reservedBits ∧
    decode Config.ref [0x00, 0x00, 0x00, 0x20] = .illegal .reservedBits ∧
    decode Config.ref [0x02, 0x00, 0x00, 0x00, 0x41] = .illegal .chunkLength ∧
    decode Config.ref [0x01, 0x00, 0x00, 0x00, 0x41, 0x42] = .illegal .chunkLength ∧
    decode Config.ref [0x00, 0x01, 0x00, 0x00] = .illegal .chunkTooLong ∧
    decode Config.ref [0x03, 0x00, 0x01, 0x40] = .illegal .sidNotZero ∧
    decode Config.ref [0x03, 0x00, 0x00, 0x40, 0x00] = .illegal .trailingBytes ∧
    decode Config.ref [0x01, 0x00, 0x01, 0x80] = .illegal .sidNotZero ∧
    decode Config.ref [0x01, 0x00, 0x00, 0xC0] = .illegal .argNotZero ∧
    decode Config.ref [0x00, 0x00, 0x01, 0xC0] = .illegal .sidNotZero ∧
    decode Config.ref [0x00, 0x00, 0x00, 0xC0, 0x00] = .illegal .trailingBytes := by decide

/-- V-DEC-24, V-DEC-25, V-DEC-27, V-DEC-29. -/
theorem test_decode_illegal_small :
    decode Config.small [0x08, 0x00, 0x00, 0x40] = .illegal .seqHighBits ∧
    decode Config.small [0x08, 0x00, 0x00, 0x80] = .illegal .seqHighBits ∧
    decode Config.small [0x01, 0x00, 0x04, 0x00, 0x61] = .illegal .sidHighBits ∧
    decode Config.small ([0x11, 0x00, 0x00, 0x00] ++ zeros 17) = .illegal .chunkTooLong := by decide

/-- The encodings of R67. -/
theorem test_encode :
    encode (.write 1 [0x48, 0x69, 0x00, 0x00]) = [0x04, 0x00, 0x01, 0x00, 0x48, 0x69, 0x00, 0x00] ∧
    encode (.notifyAck 65535) = [0xFF, 0xFF, 0x00, 0x40] ∧ encode (.checkPacket 1) = [0x01, 0x00, 0x00, 0x80] ∧
    encode .handleTimer = [0x00, 0x00, 0x00, 0xC0] ∧ Instr.resetAck = .notifyAck 0 := by decide

/-- Words of the opcode table's rows (R66); a WRITE word with `arg = 2` stands for a chunk of two zero bytes. -/
theorem test_table_words :
    decodeTableWord 32 0x00010002 = some (.write 1 [0, 0]) ∧ decodeTableWord 32 0x4000FFFF = some (.notifyAck 65535) ∧
    decodeTableWord 32 0x80000001 = some (.checkPacket 1) ∧ decodeTableWord 32 0xC0000000 = some .handleTimer ∧
    decodeTableWord 32 0x01000000 = none := by decide

theorem test_step_runs_the_table_word :
    (after (step (State.reset.withFetchWord 32 0x80000001))).map (fun s => (s.rx.lastRecv, s.inputs, s.pc)) = some (1, [], 1) ∧
    (after (step (State.reset.withFetchWord 32 0x00010002))).map (·.trace) = some [.result .ok 0] := by decide

/-! ## One step of each command -/

/-- V-WR-6: nine bytes go as twelve, padded with zeros. -/
theorem test_write_rounds_up :
    (after (exec (.write 2 [1, 2, 3, 4, 5, 6, 7, 8, 9]) State.reset)).map (·.trace) =
      some [.frame 2 1 12 [1, 2, 3, 4, 5, 6, 7, 8, 9, 0, 0, 0], .result .ok 0] := by decide

/-- V-WR-13: the third entry after 65534 carries 2; V-WR-11: full wins over oversize. -/
theorem test_write_across_the_wrap_and_full :
    (after (exec (.write 0 [3]) (txAt Config.ref 65534 [ent 0 [1], ent 0 [2]]))).map (·.trace) =
      some [.frame 0 2 1 [3], .result .ok 0] ∧
    after (exec (.write 0 [1, 2, 3, 4, 5, 6, 7, 8, 9]) fullAt5) = some { fullAt5 with trace := [.result .errFull 0] } := by decide

/-- V-NA-4 (case B) and V-NA-7 (case C). -/
theorem test_notifyAck_repeated_and_normal :
    (after (exec (.notifyAck 9) at9)).map (·.trace) =
      some [.frame 1 10 1 [0x61], .frame 2 11 2 [0x62, 0x63], .frame 1 12 1 [0x64], .result .ok 0] ∧
    (after (exec (.notifyAck 11) at9)).map (·.tx) = some { lastAcked := 11, buf := [ent 1 [0x64]] } := by decide

/-- V-NA-6: the index across the wrap is 2, not 3. V-NA-12: a bad ack without adoption. -/
theorem test_notifyAck_wrap_and_bad :
    (after (exec (.notifyAck 2) at65534)).map (fun s => (s.tx, s.status.badAck)) = some ({ lastAcked := 2, buf := [] }, false) ∧
    (after (exec (.notifyAck 2) (txAt smallNoAdopt 5 [ent 0 [0x61], ent 0 [0x62]]))).map (fun s => (s.tx, s.status.badAck)) =
      some ({ lastAcked := 5, buf := [] }, true) := by decide

/-- V-CP-10: the fourth accepted frame; V-CP-12: the deadline wraps. -/
theorem test_checkPacket_batch_and_wrapped_deadline :
    after (exec (.checkPacket 42) (rxAt Config.ref 41 3 500 499)) =
      some { rxAt Config.ref 42 0 599 499 with trace := [.ack 42, .result .ok 1] } ∧
    (after (exec (.checkPacket 42) (rxAt Config.ref 41 0 4294967290 4294967250))).map (·.rx.nextAck) = some 54 := by decide

/-- V-CP-2: 65535 is followed by 1; V-CP-5: a duplicate changes nothing. -/
theorem test_checkPacket_wrap_and_duplicate :
    (after (exec (.checkPacket 1) (rxAt Config.ref 65535 1 500 450))).map (·.rx) =
      some { lastRecv := 1, unacked := 2, nextAck := 550 } ∧
    (after (exec (.checkPacket 65535) (rxAt Config.ref 65535 1 500 450))).map (·.rx) =
      some { lastRecv := 65535, unacked := 1, nextAck := 500 } := by decide

/-- V-HT-4 at the deadline; V-HT-8 with `now` past the wrap. -/
theorem test_handleTimer_due :
    after (exec .handleTimer (rxAt Config.ref 7 2 1100 1100)) =
      some { rxAt Config.ref 7 0 1200 1100 with trace := [.ack 7, .result .ok 100] } ∧
    (after (exec .handleTimer (rxAt Config.ref 7 0 4294967290 5))).map (·.rx.nextAck) = some 105 := by decide

/-- V-HT-3 and V-HT-9: the time left, at least 1, also across the wrap. -/
theorem test_handleTimer_early :
    (after (exec .handleTimer (rxAt Config.ref 7 2 1100 1099))).map (·.trace) = some [.result .ok 1] ∧
    (after (exec .handleTimer (rxAt Config.ref 7 0 94 4294967290))).map (·.trace) = some [.result .ok 100] := by decide

/-! ## Arithmetic -/

/-- The table V-CP-ALL: `seq_succ` for SEQ_W = 3. -/
theorem test_seqSucc_table : (List.range 8).map (seqSucc Config.small) = [1, 2, 3, 4, 5, 6, 7, 1] := by decide

/-- The V-DIST table, rows 0 to 7 with the diagonal left out. -/
theorem test_seqDist_table :
    (List.range 8).map (fun a => ((List.range' 1 7).filter (· ≠ a)).map (seqDist Config.small a)) =
      [[1, 2, 3, 4, 5, 6, 7], [1, 2, 3, 4, 5, 6], [6, 1, 2, 3, 4, 5], [5, 6, 1, 2, 3, 4], [4, 5, 6, 1, 2, 3],
       [3, 4, 5, 6, 1, 2], [2, 3, 4, 5, 6, 1], [1, 2, 3, 4, 5, 6]] := by decide

/-- V-DIST-7 and V-DIST-9. -/
theorem test_seqDist_wide : seqDist Config.ref 65534 2 = 3 ∧ seqDist Config.ref 5 4 = 65534 := by decide

/-- V-TIME-7 to V-TIME-10, V-TIME-13. -/
theorem test_time :
    timeReached Config.ref 5 4294967290 ∧ ¬ timeReached Config.ref 4294967290 94 ∧ timeReached Config.ref 2147483747 100 ∧
    ¬ timeReached Config.ref 2147483748 100 ∧ timeRemaining Config.ref 4294967290 94 = 100 := by decide

/-- V-TRIM-1, 2, 5 and V-RND-1, 3, 5, 9. -/
theorem test_lengths :
    trimLen [0x48, 0x69, 0, 0] = 2 ∧ trimLen [0x41, 0, 0x42] = 3 ∧ trimLen [0, 1] = 2 ∧ trimLen [0, 0] = 0 ∧
    frameRound Config.ref 1 = 1 ∧ frameRound Config.ref 9 = 12 ∧ frameRound Config.ref 13 = 16 ∧ frameRound Config.ref 64 = 64 := by
  decide

/-! ## Ports, packets, text -/

/-- R50, R51, R58: the packet ends with `cmd_last`, and `now` is sampled with its last byte. -/
theorem test_transfers_make_packets :
    packetsOfTransfers []
      [⟨0x00, false, 1⟩, ⟨0x00, false, 2⟩, ⟨0x00, false, 3⟩, ⟨0xC0, true, 4⟩, ⟨0x00, true, 5⟩, ⟨0x01, false, 6⟩] =
    [.packet [0x00, 0x00, 0x00, 0xC0] 4, .packet [0x00] 5] := by decide

/-- R64, with the chunk written as `spec/95_test_vectors.md` writes it. -/
theorem test_asm_lines :
    asmLine (.write 1 [0x48, 0x0A]) 9 = "WRITE 1, 48 0A".toList ∧ asmLine (.notifyAck 65535) 9 = "NOTIFY_ACK 65535".toList ∧
    asmLine (.checkPacket 1) 1000 = "CHECK_PACKET 1 @1000".toList ∧ asmLine .handleTimer 94 = "HANDLE_TIMER @94".toList := by
  decide

/-- R31, R35: byte 1 of the entry in slot 1 is at address `1 * 64 + 1`; the byte after it is no byte of an entry. -/
theorem test_payload_store : at9.storeByte 65 = some 0x63 ∧ at9.storeByte 66 = none ∧ memRead at9.payloadStore 64 2 = some [0x62, 0x63] := by
  decide

/-- R21 on the state of V-WR-9. -/
theorem test_status_ports : fullAt5.statusPorts.stFull = true ∧ fullAt5.statusPorts.stTxCount = 4 ∧ fullAt5.cmdReady = true := by
  decide

/-- R61: the bytes on the frame wires below `len` are the frame's. -/
theorem test_frm_data : frmDataByte 0 [0x61, 0x62] 1 = 0x62 := by rfl

/-! ## Witnesses: encoding and steps -/

theorem test_witness_DecodeOfEncodeIsTheCommand :
    Config.ref.Legal ∧ Config.small.Legal ∧ (Instr.write 3 (zeros 16)).Legal Config.small ∧ (Instr.write 255 []).Legal Config.ref ∧
    (Instr.notifyAck 65535).Legal Config.ref ∧ (Instr.checkPacket 65535).Legal Config.ref ∧ Instr.handleTimer.Legal Config.ref := by
  decide

theorem test_witness_LegalPacketIsTheEncodingOfItsCommand :
    decode Config.small ([0x10, 0x00, 0x03, 0x00] ++ zeros 16) = .command (.write 3 (zeros 16)) ∧
    decode Config.ref [0x00, 0x00, 0x00, 0x40] = .command (.notifyAck 0) := by decide

/-- A block with the packet of CHECK_PACKET 1 waiting, then one of a single byte. -/
def waiting : State := { busy with inputs := [.packet [0x01, 0x00, 0x00, 0x80] 4294967297, .packet [0x00] 5] }

theorem test_witness_StepRunsTheDecodedCommand :
    waiting.cfg.Legal ∧ waiting.inReset = false ∧
    waiting.inputs = .packet [0x01, 0x00, 0x00, 0x80] 4294967297 :: [.packet [0x00] 5] ∧
    decode waiting.cfg [0x01, 0x00, 0x00, 0x80] = .command (.checkPacket 1) := by decide

/-- R58: the `now` of the packet is taken modulo `2^TIME_W`. -/
theorem test_step_samples_now : (after (step waiting)).map (fun s => (s.now, s.pc, s.rx.nextAck)) = some (1, 8, 101) := by decide

theorem test_witness_IllegalPacketSetsCmdillAndReports7 :
    busy.cfg.Legal ∧ busy.inReset = false ∧
    ({ busy with inputs := [.packet [0x00] 5] } : State).inputs = .packet [0x00] 5 :: [] ∧
    ∀ i, decode busy.cfg [0x00] ≠ .command i :=
  ⟨by decide, by decide, rfl, fun i h => nomatch (show Decoded.illegal .shortPacket = .command i from h)⟩

theorem test_witness_NothingHappensWithoutAnAcceptedCommand :
    busy.cfg.Legal ∧ busy.inputs = [] ∧ ({ waiting with inReset := true } : State).inReset = true ∧
    ({ waiting with inReset := true } : State).inputs = .packet [0x01, 0x00, 0x00, 0x80] 4294967297 :: [.packet [0x00] 5] := by
  decide

theorem test_witness_StepStopsOnlyOnAnIllegalConfiguration :
    ¬ ({ busy with cfg := { Config.small with maxUnacked := 7 } } : State).cfg.Legal ∧ busy.cfg.Legal := by decide

theorem test_witness_EveryAcceptedPacketGivesOneResultLast :
    busy.inReset = false ∧ (after (takePacket [0x01, 0x00, 0x00, 0x80] 450 busy)).isSome ∧
    (after (takePacket [] 450 busy)).isSome := by decide

/-! ## Witnesses: WRITE -/

theorem test_witness_WriteToFullBufferReports1 : fullAt5.txCount = fullAt5.cfg.maxUnacked := by decide

theorem test_witness_WriteOfAllZeroChunkIsDropped : at9.txCount ≠ at9.cfg.maxUnacked := by decide

/-- One byte above MAX_FRAME (V-WR-8). -/
theorem test_witness_WriteOfOversizeChunkSetsTxfatal :
    (txAt Config.small 0 []).txCount ≠ Config.small.maxUnacked ∧ (9 : Byte) ≠ 0 ∧
    Config.small.maxFrame < ([1, 2, 3, 4, 5, 6, 7, 8] : List Byte).length + 1 := by decide

/-- V-WR-6 (9 bytes go as 12) and V-WR-12 (3 of 12 bytes, exactly a frame size). -/
theorem test_witness_WriteSendsTheTrimmedPaddedFrame :
    (at65534.cfg.Legal ∧ at65534.tx.lastAcked < at65534.cfg.seqMod ∧ at65534.txCount < at65534.cfg.maxUnacked ∧ (9 : Byte) ≠ 0 ∧
      12 ∈ at65534.cfg.frameSizes ∧ ([1, 2, 3, 4, 5, 6, 7, 8] : List Byte).length + 1 ≤ 12 ∧
      ∀ m ∈ at65534.cfg.frameSizes, ([1, 2, 3, 4, 5, 6, 7, 8] : List Byte).length + 1 ≤ m → 12 ≤ m) ∧
    (3 ∈ Config.small.frameSizes ∧ ([0x41, 0x42] : List Byte).length + 1 ≤ 3 ∧
      ∀ m ∈ Config.small.frameSizes, ([0x41, 0x42] : List Byte).length + 1 ≤ m → 3 ≤ m) := by decide

/-! ## Witnesses: NOTIFY_ACK -/

theorem test_witness_RepeatedAckRetransmitsEveryEntry :
    at9.cfg.Legal ∧ at9.tx.lastAcked < at9.cfg.seqMod ∧ at9.txCount ≤ at9.cfg.maxUnacked ∧ at9.tx.lastAcked ≠ 0 := by decide

/-- The oldest and the newest entry, across the wrap. -/
theorem test_witness_NormalAckReleasesThroughItsEntry :
    at65534.cfg.Legal ∧ at65534.tx.lastAcked < at65534.cfg.seqMod ∧ at65534.txCount ≤ at65534.cfg.maxUnacked ∧
    0 < at65534.txCount ∧ 2 < at65534.txCount ∧ ringAfter at65534.cfg at65534.tx.lastAcked (0 + 1) = 65535 ∧
    ringAfter at65534.cfg at65534.tx.lastAcked (2 + 1) = 2 := by decide

/-- V-NA-9 (one past the newest, adopted), V-NA-11 (empty buffer), V-NA-12 (not adopted). -/
theorem test_witness_BadAckClearsTheBuffer :
    (at9.cfg.Legal ∧ at9.tx.lastAcked < at9.cfg.seqMod ∧ at9.txCount ≤ at9.cfg.maxUnacked ∧ 13 < at9.cfg.seqMod ∧ 13 ≠ 0 ∧
      13 ≠ at9.tx.lastAcked ∧ ∀ i, i < at9.txCount → 13 ≠ ringAfter at9.cfg at9.tx.lastAcked (i + 1)) ∧
    (∀ i, i < (txAt Config.ref 9 []).txCount → 10 ≠ ringAfter Config.ref 9 (i + 1)) ∧
    (smallNoAdopt.Legal ∧ 2 < smallNoAdopt.seqMod ∧
      ∀ i, i < (txAt smallNoAdopt 5 [ent 0 [0x61], ent 0 [0x62]]).txCount → 2 ≠ ringAfter smallNoAdopt 5 (i + 1)) := by decide

theorem inv_at9 : at9.Inv := ⟨by decide, by decide, by decide, by decide, by decide, by decide, by decide, by decide⟩

theorem inv_at65534 : at65534.Inv := ⟨by decide, by decide, by decide, by decide, by decide, by decide, by decide, by decide⟩

theorem inv_fullAt5 : fullAt5.Inv := ⟨by decide, by decide, by decide, by decide, by decide, by decide, by decide, by decide⟩

theorem inv_waiting : waiting.Inv := ⟨by decide, by decide, by decide, by decide, by decide, by decide, by decide, by decide⟩

theorem test_witness_EntriesKeepTheirNumbersAcrossEveryStep : waiting.Inv ∧ (after (step waiting)).isSome = true :=
  ⟨inv_waiting, by decide⟩

/-! ## Witnesses: CHECK_PACKET and HANDLE_TIMER -/

/-- V-CP-2, V-CP-4: the successor of 65535 is 1; 0 and 2 are not. -/
theorem test_witness_CheckPacketAcceptsExactlyTheSuccessor :
    1 = (if busy.rx.lastRecv = busy.cfg.seqMod - 1 then 1 else busy.rx.lastRecv + 1) ∧
    0 ≠ (if busy.rx.lastRecv = busy.cfg.seqMod - 1 then 1 else busy.rx.lastRecv + 1) ∧
    2 ≠ (if busy.rx.lastRecv = busy.cfg.seqMod - 1 then 1 else busy.rx.lastRecv + 1) ∧
    busy.cfg.maxBeforeAck ≤ busy.rx.unacked + 1 ∧ ¬ at9.cfg.maxBeforeAck ≤ at9.rx.unacked + 1 := by decide

theorem test_witness_BatchAckAfterMaxBeforeAckFrames : waiting.Inv ∧ at9.Inv := ⟨inv_waiting, inv_at9⟩

/-- Exactly at the deadline, and `2^31 - 1` milliseconds late (V-TIME-9). -/
theorem test_witness_HandleTimerWhenDueAcksOnceAndRestarts :
    Config.ref.Legal ∧ 1100 < 2 ^ Config.ref.timeW ∧
    0 < 2 ^ (Config.ref.timeW - 1) ∧ (rxAt Config.ref 7 2 1100 1100).now = ((rxAt Config.ref 7 2 1100 1100).rx.nextAck + 0) % 2 ^ 32 ∧
    2147483647 < 2 ^ (Config.ref.timeW - 1) ∧
    (rxAt Config.ref 7 2 100 2147483747).now = ((rxAt Config.ref 7 2 100 2147483747).rx.nextAck + 2147483647) % 2 ^ 32 := by decide

/-- One millisecond early (V-HT-3), and `2^31` milliseconds ahead (V-TIME-10). -/
theorem test_witness_HandleTimerBeforeDeadlineReportsTheDistance :
    Config.ref.Legal ∧ 1099 < 2 ^ Config.ref.timeW ∧ 1 ≤ 2 ^ (Config.ref.timeW - 1) ∧
    (rxAt Config.ref 7 2 1100 1099).rx.nextAck = ((rxAt Config.ref 7 2 1100 1099).now + 1) % 2 ^ 32 ∧
    2147483648 ≤ 2 ^ (Config.ref.timeW - 1) ∧
    (rxAt Config.ref 7 2 100 2147483748).rx.nextAck = ((rxAt Config.ref 7 2 100 2147483748).now + 2147483648) % 2 ^ 32 := by decide

/-- Right after the deadline was set, and at the last moment the premise allows. -/
theorem test_witness_HandleTimerDelayIsBetweenOneAndTheInterval :
    Config.ref.Legal ∧ 0 < Config.ref.ackIntervalMs + 2 ^ (Config.ref.timeW - 1) ∧
    (rxAt Config.ref 7 2 1100 1000).rx.nextAck = (1000 + Config.ref.ackIntervalMs) % 2 ^ 32 ∧
    (rxAt Config.ref 7 2 1100 1000).now = (1000 + 0) % 2 ^ 32 ∧
    2147483747 < Config.ref.ackIntervalMs + 2 ^ (Config.ref.timeW - 1) ∧
    (rxAt Config.ref 7 2 1100 2147484747).now = (1000 + 2147483747) % 2 ^ 32 := by decide

theorem test_witness_PollAfterTheReportedDelayGetsTheAck :
    busy.cfg.Legal ∧ busy.now < 2 ^ busy.cfg.timeW ∧ busy.rx.nextAck < 2 ^ busy.cfg.timeW := by decide

/-! ## Witnesses: arithmetic -/

/-- V-ADV-3, V-ADV-12: a full turn from 0 and from 1, and one step from the last number. -/
theorem test_witness_SeqAdvanceClosedForms :
    Config.small.Legal ∧ 0 < Config.small.seqMod ∧ 7 < Config.small.seqMod ∧ 1 ≤ Config.small.seqN ∧ 7 ≤ Config.small.seqN ∧
    seqAdvance Config.small 0 7 = 7 ∧ seqAdvance Config.small 7 1 = 1 ∧ seqAdvance Config.small 1 7 = 1 := by decide

/-- V-DIST-4, V-DIST-2, V-DIST-3: from 0, forwards and across the wrap. -/
theorem test_witness_SeqDistIsTheLeastDistance :
    Config.small.Legal ∧ (0 < Config.small.seqMod ∧ 7 < Config.small.seqMod ∧ (7 : Nat) ≠ 0 ∧ (7 : Nat) ≠ 0) ∧
    (1 < 7 ∧ seqDist Config.small 1 7 = 6) ∧ (4 < 5 ∧ seqDist Config.small 5 4 = 6) ∧ seqDist Config.small 0 7 = 7 := by decide

/-- `a < b` and `b < a`. -/
theorem test_witness_SeqDistHardwareForm :
    Config.small.Legal ∧ 6 < Config.small.seqMod ∧ 2 < Config.small.seqMod ∧ (2 : Nat) ≠ 0 ∧ (2 : Nat) ≠ 6 ∧
    seqDist Config.small 6 2 = (8 + 2 - 6) % 8 - 1 ∧ seqDist Config.small 2 6 = (8 + 6 - 2) % 8 := by decide

theorem test_witness_SeqAdvanceAndSeqDistAreInverse :
    Config.small.Legal ∧ 5 < Config.small.seqMod ∧ (1 ≤ 4 ∧ 4 < Config.small.seqMod ∧ 4 ≠ 5) ∧ (1 ≤ 6 ∧ 6 ≤ Config.small.seqN - 1) ∧
    0 < Config.small.seqMod := by decide

/-- V-POS-2 to the bound of R78 and one past it, and from 0 to SEQ_N positions. -/
theorem test_witness_PositionsHaveDistinctNumbers :
    Config.small.Legal ∧ 5 < Config.small.seqMod ∧ 1 ≤ 5 ∧
    (5 :: (List.range 6).map (seqOfPos Config.small 5)).Nodup ∧ ¬ (5 :: (List.range 7).map (seqOfPos Config.small 5)).Nodup ∧
    7 ≤ Config.small.seqN ∧ (List.range 7).map (seqOfPos Config.small 0) = [1, 2, 3, 4, 5, 6, 7] := by decide

theorem test_witness_DeadlineWindowAndTimeRemaining :
    Config.ref.Legal ∧ 100 < 2 ^ Config.ref.timeW ∧ 2147483647 < 2 ^ Config.ref.timeW ∧ 4294967295 < 2 ^ Config.ref.timeW ∧
    timeReached Config.ref ((100 + 2147483647) % 2 ^ 32) 100 ∧ ¬ timeReached Config.ref ((100 + 4294967295) % 2 ^ 32) 100 := by decide

/-- A string that ends in zeros, and one with no other byte. -/
theorem test_witness_TrimLenRemovesExactlyTheTrailingZeros :
    trimLen [0x41, 0, 0x42, 0] ≤ 3 ∧ 3 < ([0x41, 0, 0x42, 0] : List Byte).length ∧ trimLen [0x41, 0, 0x42, 0] ≠ 0 := by decide

theorem test_witness_FrameRoundIsTheLeastFrameSize :
    Config.ref.Legal ∧ 1 ≤ 1 ∧ 1 ≤ Config.ref.maxFrame ∧ 1 ≤ 64 ∧ 64 ≤ Config.ref.maxFrame := by decide

/-! ## Witnesses: reset -/

/-- `busy` in reset, about to be released at `now = 4294967000` (program P3). -/
def held : State := { busy with inReset := true, inputs := [.resetRelease 4294967000] }

theorem test_witness_ReleaseOfResetLeavesTheResetValues :
    held.cfg.Legal ∧ held.inReset = true ∧ held.inputs = .resetRelease 4294967000 :: [] ∧
    (after (step held)).map (·.rx.nextAck) = some 4294967100 := by decide

/-- NOTIFY_ACK 9 cut by reset after two of its three frames. -/
def cutAt9 : State := { at9 with inputs := [.resetDuring [0x09, 0x00, 0x00, 0x40] 1 2] }

/-- Each clause: a fall while running and one in reset, a cut in reset, a command cut after two of three frames. -/
theorem test_witness_CutCommandKeepsOnlyTheEventsAlreadyTransferred :
    (busy.cfg.Legal ∧ ({ busy with inputs := [.resetAssert] } : State).inputs = .resetAssert :: [] ∧
      (after (step { busy with inputs := [.resetAssert] })).map (fun s => (s.trace, s.inReset, s.cmdReady)) =
        some ([.result .ok 0], true, false) ∧
      (after (step { held with inputs := [.resetAssert] })).map (·.inReset) = some true) ∧
    (({ cutAt9 with inReset := true } : State).inReset = true ∧
      ({ cutAt9 with inReset := true } : State).inputs = .resetDuring [0x09, 0x00, 0x00, 0x40] 1 2 :: []) ∧
    cutAt9.cfg.Legal ∧ cutAt9.inReset = false ∧ cutAt9.inputs = .resetDuring [0x09, 0x00, 0x00, 0x40] 1 2 :: [] ∧
    (after (step cutAt9)).map (fun s => (s.trace, s.inReset)) =
      some ([.frame 1 10 1 [0x61], .frame 2 11 2 [0x62, 0x63]], true) := by decide

theorem test_witness_ResetMeetsTheInvariant : Config.small.Legal ∧ Config.ref.Legal := by decide

/-! ## Witnesses: steps and frames -/

theorem test_witness_EveryStepKeepsTheInvariant :
    (waiting.Inv ∧ (after (step waiting)).isSome = true) ∧ (fullAt5.Inv ∧ (after (step fullAt5)).isSome = true) :=
  ⟨⟨inv_waiting, by decide⟩, ⟨inv_fullAt5, by decide⟩⟩

/-- Across the wrap, and a full buffer. -/
theorem test_witness_EntryNumbersAreDistinctAndNonZero :
    at65534.Inv ∧ fullAt5.Inv ∧ at65534.numbered.map Prod.fst = [65535, 1, 2] ∧ fullAt5.numbered.map Prod.fst = [6, 7, 1, 2] :=
  ⟨inv_at65534, inv_fullAt5, by decide, by decide⟩

/-- The flags set, and a step that is no release of reset. -/
theorem test_witness_StickyFlagsStaySetUntilReset :
    (∀ now rest, waiting.inputs ≠ .resetRelease now :: rest) ∧ (after (step waiting)).isSome = true ∧
    (after (step { waiting with status := { txFatal := true, badAck := true, cmdIll := true } })).map (·.status) =
      some { txFatal := true, badAck := true, cmdIll := true } :=
  ⟨fun _ _ h => by simp [waiting] at h, by decide, by decide⟩

/-- A retransmission: frames are emitted. -/
theorem test_witness_EmittedFramesAreLegal :
    at9.Inv ∧ (after (step { at9 with inputs := [.packet [0x09, 0x00, 0x00, 0x40] 1] })).map (fun s => frameSeqs s.emitted) =
      some [10, 11, 12] := ⟨inv_at9, by decide⟩

/-- A step that moves `RX.lastRecv`, from 65535 to 1. -/
theorem test_witness_LastRecvMovesOnlyToTheNextNumber :
    (∀ now rest, waiting.inputs ≠ .resetRelease now :: rest) ∧ (after (step waiting)).map (·.rx.lastRecv) = some 1 :=
  ⟨fun _ _ h => by simp [waiting] at h, by decide⟩

theorem test_witness_ParametersNeverChange : (after (step waiting)).isSome = true ∧ (after (step held)).isSome = true := by decide

theorem test_witness_EmittedEventsAreNeverTakenBack :
    (after (step waiting)).map (·.emitted) = some [.result .ok 0, .ack 1, .result .ok 1] ∧
    (after (step held)).map (·.emitted) = some [.result .ok 0] := by decide

theorem test_witness_TxCommandsLeaveTheRestUnchanged :
    (after (exec (.write 0 [0x65]) busy)).isSome = true ∧ (after (exec (.notifyAck 11) busy)).isSome = true := by decide

theorem test_witness_RxCommandsLeaveTheRestUnchanged :
    (after (exec (.checkPacket 1) busy)).isSome = true ∧ (after (exec .handleTimer busy)).isSome = true := by decide

/-! ## Witnesses: the payload store -/

theorem test_witness_PayloadStoreHoldsTheEntriesInTheirSlots :
    at9.Inv ∧ at9.tx.buf[0]? = some (ent 1 [0x61]) ∧ at9.tx.buf[2]? = some (ent 1 [0x64]) := ⟨inv_at9, by decide, by decide⟩

/-- A WRITE that sends (the first byte, the last byte and the padding of its slot), and one to a full buffer. -/
theorem test_witness_WriteStoresOnlyIntoItsSlot :
    (at9.Inv ∧ (after (exec (.write 2 [1, 2, 3, 4, 5, 6, 7, 8, 9]) at9)).isSome = true ∧
      at9.txCount ≠ at9.cfg.maxUnacked ∧ trimLen [1, 2, 3, 4, 5, 6, 7, 8, 9] ≠ 0 ∧
      trimLen [1, 2, 3, 4, 5, 6, 7, 8, 9] ≤ at9.cfg.maxFrame) ∧
    (after (exec (.write 2 [1, 2, 3, 4, 5, 6, 7, 8, 9]) at9)).map
      (fun t => (t.storeByte 192, t.storeByte 200, t.storeByte 201, t.storeByte 203, t.storeByte 204)) =
      some (some 1, some 9, some 0, some 0, none) ∧
    (fullAt5.Inv ∧ ¬ fullAt5.txCount ≠ fullAt5.cfg.maxUnacked) :=
  ⟨⟨inv_at9, by decide, by decide, by decide, by decide⟩, by decide, inv_fullAt5, by decide⟩

/-- A repeated ack, the oldest and the newest entry, a full reset and a bad ack. -/
theorem test_witness_NotifyAckMovesWholeSlots :
    at9.Inv ∧ 12 < at9.cfg.seqMod ∧ (9 ≠ 0 ∧ 9 = at9.tx.lastAcked) ∧
    (0 < at9.txCount ∧ 10 = ringAfter at9.cfg at9.tx.lastAcked (0 + 1)) ∧
    (2 < at9.txCount ∧ 12 = ringAfter at9.cfg at9.tx.lastAcked (2 + 1)) ∧
    (8 ≠ at9.tx.lastAcked ∧ ∀ idx, idx < at9.txCount → 8 ≠ ringAfter at9.cfg at9.tx.lastAcked (idx + 1)) ∧
    (after (exec (.notifyAck 10) at9)).map (fun t => (t.storeByte 0, t.storeByte 1)) = some (some 0x62, some 0x63) ∧
    (after (exec (.notifyAck 8) at9)).map (·.storeByte 0) = some none :=
  ⟨inv_at9, by decide, by decide, by decide, by decide, by decide, by decide, by decide⟩

/-! ## Witnesses: the halves -/

theorem test_witness_TxCommandsDependOnlyOnTxState :
    ((∃ sid chunk, Instr.write 1 [0x41] = .write sid chunk) ∨ (∃ seq, Instr.write 1 [0x41] = .notifyAck seq)) ∧
    busy.cfg = at9.cfg ∧ busy.tx = at9.tx ∧ busy.rx ≠ at9.rx := ⟨.inl ⟨_, _, rfl⟩, by decide, by decide, by decide⟩

theorem test_witness_RxCommandsDependOnlyOnRxStateAndTime :
    ((∃ seq, Instr.checkPacket 1 = .checkPacket seq) ∨ Instr.checkPacket 1 = .handleTimer) ∧
    (txAt Config.ref 0 []).cfg = at9.cfg ∧ (txAt Config.ref 0 []).rx = at9.rx ∧ (txAt Config.ref 0 []).now = at9.now ∧
    (txAt Config.ref 0 []).tx ≠ at9.tx := ⟨.inl ⟨_, rfl⟩, by decide, by decide, by decide, by decide⟩

theorem test_witness_TxAndRxCommandsCommute :
    ((∃ sid chunk, Instr.notifyAck 9 = .write sid chunk) ∨ (∃ seq, Instr.notifyAck 9 = .notifyAck seq)) ∧
    ((∃ seq, Instr.handleTimer = .checkPacket seq) ∨ Instr.handleTimer = .handleTimer) := ⟨.inr ⟨_, rfl⟩, .inr rfl⟩

/-! ## Witnesses: the protocol's hazards -/

/-- V-NA-10, and a ring that is exactly one longer than the stale number's distance and the buffer together. -/
theorem test_witness_StaleAckIsABadAck :
    (at9.cfg.Legal ∧ at9.tx.lastAcked < at9.cfg.seqMod ∧ 1 ≤ 8 ∧ 8 < at9.cfg.seqMod ∧ 1 ≤ 1 ∧
      1 + at9.txCount < at9.cfg.seqN ∧ at9.tx.lastAcked = ringAfter at9.cfg 8 1) ∧
    (fullAt5.cfg.Legal ∧ fullAt5.tx.lastAcked < fullAt5.cfg.seqMod ∧ 1 ≤ 3 ∧ 3 < fullAt5.cfg.seqMod ∧ 1 ≤ 2 ∧
      2 + fullAt5.txCount < fullAt5.cfg.seqN ∧ fullAt5.tx.lastAcked = ringAfter fullAt5.cfg 3 2) := by decide

/-- Program P5: the sender, reset alone, hears 5. -/
theorem test_witness_AdoptionRealignsSenderAndReceiver :
    let s := txAt Config.small 0 [ent 0 [0x71], ent 0 [0x72], ent 0 [0x73]]
    let r := rxAt Config.small 5 0 100 0
    s.cfg.Legal ∧ s.tx.lastAcked < s.cfg.seqMod ∧ s.txCount ≤ s.cfg.maxUnacked ∧ s.cfg.txBadackAdopt = true ∧
    r.cfg.seqW = s.cfg.seqW ∧ r.rx.lastRecv = 5 ∧ 5 < s.cfg.seqMod ∧ 5 ≠ 0 ∧ 5 ≠ s.tx.lastAcked ∧
    ∀ i, i < s.txCount → 5 ≠ ringAfter s.cfg s.tx.lastAcked (i + 1) := by decide

/-- R168: the sender at 0 without adoption, the receiver at 5; and the exception's neighbour, the receiver at 6. -/
theorem test_witness_WithoutAdoptionABadAckRepeats :
    let s := txAt smallNoAdopt 0 [ent 0 [0x71], ent 0 [0x72], ent 0 [0x73]]
    let r := rxAt Config.small 5 0 100 0
    (s.cfg.Legal ∧ s.tx.lastAcked < s.cfg.seqMod ∧ s.txCount ≤ s.cfg.maxUnacked ∧ s.cfg.txBadackAdopt = false ∧
      r.cfg.seqW = s.cfg.seqW ∧ r.rx.lastRecv = 5 ∧ 5 < s.cfg.seqMod ∧ 5 ≠ 0 ∧ 5 ≠ s.tx.lastAcked ∧
      ¬ (s.tx.lastAcked = 0 ∧ 5 = s.cfg.seqMod - 1) ∧ ∀ i, i < s.txCount → 5 ≠ ringAfter s.cfg s.tx.lastAcked (i + 1)) ∧
    (¬ (s.tx.lastAcked = 0 ∧ 6 = s.cfg.seqMod - 1) ∧ ∀ i, i < s.txCount → 6 ≠ ringAfter s.cfg s.tx.lastAcked (i + 1)) := by decide

/-- A receiver that stands where the sender's last acknowledgement left it, across the wrap. -/
theorem test_witness_RetransmissionIsAcceptedWhole :
    at65534.Inv ∧ (rxAt Config.ref 65534 0 100 0).cfg.seqW = at65534.cfg.seqW ∧ at65534.tx.lastAcked ≠ 0 ∧
    (rxAt Config.ref 65534 0 100 0).rx.lastRecv = at65534.tx.lastAcked := ⟨inv_at65534, by decide, by decide, by decide⟩

/-- A receiver that has all three frames already. -/
theorem test_witness_UnneededRetransmissionIsDroppedWhole :
    at65534.Inv ∧ (rxAt Config.ref 2 0 100 0).cfg.seqW = at65534.cfg.seqW ∧ at65534.tx.lastAcked ≠ 0 ∧
    (rxAt Config.ref 2 0 100 0).rx.lastRecv = seqAdvance at65534.cfg at65534.tx.lastAcked at65534.txCount :=
  ⟨inv_at65534, by decide, by decide, by decide⟩

/-! ## Witnesses: two instances, ports -/

theorem test_witness_FreshLinkMeetsTheLinkInvariant : Config.small.Legal ∧ Config.ref.Legal := by decide

/-- Program P4 after step 2 and Y's first keepalive: X has sent 1, Y has accepted and acknowledged it. -/
def linked : Link where
  x := { txAt Config.small 0 [ent 0 [0x61]] with trace := [.frame 0 1 1 [0x61], .result .ok 0] }
  y := { rxAt Config.small 1 0 21 11 with trace := [.result .ok 1, .ack 1, .result .ok 10] }

theorem inv_linked_x : linked.x.Inv := ⟨by decide, by decide, by decide, by decide, by decide, by decide, by decide, by decide⟩

theorem inv_linked_y : linked.y.Inv := ⟨by decide, by decide, by decide, by decide, by decide, by decide, by decide, by decide⟩

/-- Every kind of event has a next pair there: the acknowledgement arrives at X, the frame again at Y, and so on. -/
theorem test_witness_EveryLinkEventKeepsTheLinkInvariant : linked.Inv ∧
    (∃ m, linked.step (.ackArrives .x 0 12) = .next m) ∧ (∃ m, linked.step (.frameArrives .y 0 12) = .next m) ∧
    (∃ m, linked.step (.write .x 1 [0x62] 12) = .next m) ∧ (∃ m, linked.step (.timer .y 12) = .next m) ∧
    (∃ m, linked.step (.fullReset .x 12) = .next m ∧ m.x.tx = { lastAcked := 0, buf := [] }) ∧
    (∃ m, linked.step (.reset .x 12) = .next m) :=
  ⟨⟨fun d => by cases d; exacts [inv_linked_x, inv_linked_y], fun d => by cases d <;> decide, fun d => by cases d <;> decide,
      fun d => by cases d <;> decide⟩,
    ⟨_, rfl⟩, ⟨_, rfl⟩, ⟨_, rfl⟩, ⟨_, rfl⟩, ⟨_, rfl, by decide⟩, ⟨_, rfl⟩⟩

theorem test_witness_StatusValuesFitTheirPorts : fullAt5.Inv ∧ fullAt5.txCount = fullAt5.cfg.maxUnacked := ⟨inv_fullAt5, by decide⟩

end Sys2Proof.Tests
end

section
/-! SUPPORT. What every step of the machine can do, as the family of 00_scope.md needs it: a packet and an input always answer,
no step touches a parameter, and the list of all events emitted so far only grows. -/

namespace Sys2Proof.Machine

/-! ## A packet and an input always answer -/

/-- A running block transfers a packet (R50): `now` is sampled, and then the packet runs. -/
theorem takePacket_of_running {s : State} (h : s.inReset = false) (p : List Byte) (now : Nat) :
    takePacket p now s = runPacket p (accept now s) := by
  simp [takePacket, h]

/-- In reset no packet is transferred (R155). -/
theorem takePacket_of_inReset {s : State} (h : s.inReset = true) (p : List Byte) (now : Nat) :
    takePacket p now s = .next s := by
  simp [takePacket, h]

/-- Whatever an accepted packet ends in, it has run as one command does. -/
theorem ran_of_runPacket {p : List Byte} {s t : State} (h : runPacket p s = .next t) : Ran s t := by
  obtain ⟨u, hu, hran⟩ := runPacket_ran p s
  obtain rfl : u = t := by simpa [hu] using h
  exact hran

theorem takePacket_answers (p : List Byte) (now : Nat) (s : State) : ∃ t, takePacket p now s = .next t := by
  cases h : s.inReset with
  | true => exact ⟨s, takePacket_of_inReset h p now⟩
  | false =>
    obtain ⟨t, ht, -⟩ := runPacket_ran p (accept now s)
    exact ⟨t, (takePacket_of_running h p now).trans ht⟩

/-- Where the packet itself would end in `t`, the cut command ends in reset with a first part of its events (R155). -/
theorem cutCommand_of_next {p : List Byte} {now : Nat} {s t : State} (k : Nat) (h : takePacket p now s = .next t) :
    cutCommand p now k s = .next (assertReset (emitAll (eventsBeforeCut k s t) s)) := by
  simp [cutCommand, h]

theorem takeInput_answers (inp : Input) (s : State) : ∃ t, takeInput inp s = .next t := by
  cases inp with
  | packet p now => exact takePacket_answers p now s
  | resetAssert => exact ⟨_, rfl⟩
  | resetDuring p now k =>
    obtain ⟨t, ht⟩ := takePacket_answers p now s
    exact ⟨_, cutCommand_of_next k ht⟩
  | resetRelease now => exact ⟨_, rfl⟩

/-! ## One step -/

theorem step_of_not_legal {s : State} (h : ¬ s.cfg.Legal) : step s = .refused .illegalConfiguration := if_neg h

theorem step_of_no_input {s : State} (h : s.cfg.Legal) (hin : s.inputs = []) : step s = .next s := by
  rw [step, if_pos h, hin]

theorem step_of_input {s : State} {inp : Input} {rest : List Input} (h : s.cfg.Legal) (hin : s.inputs = inp :: rest) :
    step s = takeInput inp { s with inputs := rest } := by
  rw [step, if_pos h, hin]

theorem step_answers {s : State} (h : s.cfg.Legal) : ∃ t, step s = .next t := by
  cases hin : s.inputs with
  | nil => exact ⟨s, step_of_no_input h hin⟩
  | cons inp rest =>
    rw [step_of_input h hin]
    exact takeInput_answers inp _

/-! ## The events emitted so far -/

/-- A command takes back none of the events emitted before it. -/
theorem Ran.emitted {s t : State} (h : Ran s t) : ∃ more, t.emitted = s.emitted ++ more := by
  obtain ⟨evs, k, v, htr, -⟩ := h.trace
  exact ⟨evs ++ [.result k v], by simp [State.emitted, h.past, htr]⟩

/-! ## The statements of the family -/

/-- Settles O8: `step` has no branch that stops but the one on the configuration, since every input answers. -/
theorem stepStopsOnlyOnAnIllegalConfiguration : Obligations.StepStopsOnlyOnAnIllegalConfiguration :=
  fun _ => ⟨step_of_not_legal, step_answers⟩

/-- Settles O9: a packet that a running block takes has run as a command does, from the state with its `now` sampled. -/
theorem everyAcceptedPacketGivesOneResultLast : Obligations.EveryAcceptedPacketGivesOneResultLast := by
  intro s t p now hrun hst
  rw [takePacket_of_running hrun] at hst
  have hran := ran_of_runPacket hst
  obtain ⟨evs, code, value, htr, hres⟩ := hran.trace
  exact ⟨evs, code, value, htr, hres, hran.pc⟩

/-- Settles O43: the commands keep the configuration, and the release of reset starts again under the same one. -/
theorem parametersNeverChange : Obligations.ParametersNeverChange := by
  intro s t hst
  obtain ⟨-, ⟨-, rfl⟩ | ⟨_, _, -, rfl⟩ | ⟨_, _, _, -, -, hrun⟩ | ⟨_, _, _, -, -, rfl, -⟩ | ⟨_, _, -, -, rfl⟩⟩ :=
    step_cases hst
  · rfl
  · rfl
  · exact (ran_of_runPacket hrun).cfg
  · rfl
  · rfl

/-- Settles O44: a command and a cut command add to the trace, and the release of reset moves the trace to `past`. -/
theorem emittedEventsAreNeverTakenBack : Obligations.EmittedEventsAreNeverTakenBack := by
  intro s t hst
  obtain ⟨-, ⟨-, rfl⟩ | ⟨_, _, -, rfl⟩ | ⟨_, _, _, -, -, hrun⟩ | ⟨_, _, evs, -, -, rfl, -⟩ | ⟨_, _, -, -, rfl⟩⟩ :=
    step_cases hst
  · exact ⟨[], by simp⟩
  · exact ⟨[], by simp [State.emitted]⟩
  · exact (ran_of_runPacket hrun).emitted
  · exact ⟨evs, by simp [State.emitted]⟩
  · exact ⟨[], by simp [State.emitted, State.hardwareReset]⟩

end Sys2Proof.Machine
end

section
/-! SUPPORT. Independence of the two schedulers (R2, R26): one equation for each branch of a command's meaning, what each
branch leaves in its half and in the trace, and from these that a command started in two states that agree on its half ends
alike. -/

namespace Sys2Proof.Machine

/-! ## The branches of the meanings -/

theorem execWrite_of_full {s : State} (sid : Nat) (chunk : List Byte) (h : s.txCount = s.cfg.maxUnacked) :
    execWrite sid chunk s = .next (raise .txFull s) := by
  simp [execWrite, h]

theorem execWrite_of_zero {s : State} (sid : Nat) {chunk : List Byte} (h : s.txCount ≠ s.cfg.maxUnacked)
    (h0 : trimLen chunk = 0) : execWrite sid chunk s = .next (reply 0 s) := by
  simp [execWrite, h, h0]

theorem execWrite_of_oversize {s : State} (sid : Nat) {chunk : List Byte} (h : s.txCount ≠ s.cfg.maxUnacked)
    (h0 : trimLen chunk ≠ 0) (hbig : s.cfg.maxFrame < trimLen chunk) :
    execWrite sid chunk s = .next (raise .txFatalOversize s) := by
  simp [execWrite, h, h0, hbig]

/-- The entry a WRITE makes of its chunk (R85 step 6). -/
def entryOf (c : Config) (sid : Nat) (chunk : List Byte) : Entry where
  sid := sid
  len := frameRound c (trimLen chunk)
  data := padPayload chunk (trimLen chunk) (frameRound c (trimLen chunk))

theorem execWrite_of_fits {s : State} (sid : Nat) {chunk : List Byte} (h : s.txCount ≠ s.cfg.maxUnacked)
    (h0 : trimLen chunk ≠ 0) (hfit : ¬ s.cfg.maxFrame < trimLen chunk) :
    execWrite sid chunk s = .next (reply 0 (sendFrame (entryOf s.cfg sid chunk) s)) := by
  simp [execWrite, entryOf, h, h0, hfit]

theorem applyAck_of_zero (s : State) : applyAck 0 s = fullReset s := rfl

theorem applyAck_of_repeated {s : State} {seq : Nat} (h0 : seq ≠ 0) (h : seq = s.tx.lastAcked) :
    applyAck seq s = retransmitAll s := by
  simp [applyAck, h0, ← h]

theorem applyAck_of_bad {s : State} {seq : Nat} (h0 : seq ≠ 0) (h : seq ≠ s.tx.lastAcked)
    (hidx : s.txCount ≤ seqDist s.cfg s.tx.lastAcked seq - 1) : applyAck seq s = recoverBadAck seq s := by
  simp [applyAck, h0, h, hidx]

theorem applyAck_of_normal {s : State} {seq : Nat} (h0 : seq ≠ 0) (h : seq ≠ s.tx.lastAcked)
    (hidx : ¬ s.txCount ≤ seqDist s.cfg s.tx.lastAcked seq - 1) :
    applyAck seq s = releaseThrough seq (seqDist s.cfg s.tx.lastAcked seq - 1) s := by
  simp [applyAck, h0, h, hidx]

theorem execCheckPacket_of_not_next {s : State} {seq : Nat} (h : seq ≠ seqSucc s.cfg s.rx.lastRecv) :
    execCheckPacket seq s = .next (reply 0 s) := if_pos h

theorem execCheckPacket_of_next_in_batch {s : State} {seq : Nat} (h : seq = seqSucc s.cfg s.rx.lastRecv)
    (hbatch : s.rx.unacked + 1 < s.cfg.maxBeforeAck) :
    execCheckPacket seq s = .next (reply 1 (pushDeadline (countFrame seq s))) := by
  simp [execCheckPacket, batchAck, ← h, Nat.not_le.2 hbatch]

theorem execCheckPacket_of_next_ends_batch {s : State} {seq : Nat} (h : seq = seqSucc s.cfg s.rx.lastRecv)
    (hbatch : s.cfg.maxBeforeAck ≤ s.rx.unacked + 1) :
    execCheckPacket seq s = .next (reply 1 (pushDeadline (sendAck seq (countFrame seq s)))) := by
  simp [execCheckPacket, batchAck, ← h, hbatch]

theorem execHandleTimer_of_due {s : State} (h : timeReached s.cfg s.now s.rx.nextAck) :
    execHandleTimer s =
      .next (reply (BitVec.ofNat 32 s.cfg.ackIntervalMs) (pushDeadline (sendAck s.rx.lastRecv s))) := if_pos h

theorem execHandleTimer_of_not_due {s : State} (h : ¬ timeReached s.cfg s.now s.rx.nextAck) :
    execHandleTimer s =
      .next (reply (BitVec.ofNat 32 (max 1 (timeRemaining s.cfg s.now s.rx.nextAck))) s) := if_neg h

/-! ## What the branches leave in the TX state and the trace -/

section

variable (s : State)

@[simp] theorem sendFrame_tx (e : Entry) : (sendFrame e s).tx = { s.tx with buf := s.tx.buf ++ [e] } := rfl
@[simp] theorem sendFrame_trace (e : Entry) :
    (sendFrame e s).trace = s.trace ++ [frameOf s.cfg s.tx.lastAcked s.tx.buf.length e] := rfl

@[simp] theorem fullReset_tx : (fullReset s).tx = { lastAcked := 0, buf := [] } := rfl
@[simp] theorem fullReset_trace : (fullReset s).trace = s.trace ++ [.space] := rfl

@[simp] theorem retransmitAll_tx : (retransmitAll s).tx = s.tx := rfl
@[simp] theorem retransmitAll_trace :
    (retransmitAll s).trace = s.trace ++ framesFrom s.cfg s.tx.lastAcked 0 s.tx.buf := rfl

@[simp] theorem releaseThrough_tx (seq idx : Nat) :
    (releaseThrough seq idx s).tx = { lastAcked := seq, buf := s.tx.buf.drop (idx + 1) } := rfl
@[simp] theorem releaseThrough_trace (seq idx : Nat) : (releaseThrough seq idx s).trace = s.trace ++ [.space] := rfl

@[simp] theorem recoverBadAck_tx (seq : Nat) : (recoverBadAck seq s).tx =
    { lastAcked := if s.cfg.txBadackAdopt then seq else s.tx.lastAcked, buf := [] } := rfl
@[simp] theorem recoverBadAck_trace (seq : Nat) : (recoverBadAck seq s).trace = s.trace ++ [.space] := rfl

end

/-! ## Two runs that end alike -/

/-- `cmd`, started in `s` and in `s'`, completes in both with the same value of `half` and after emitting the same events. -/
def EndsAlike {α : Type} (half : State → α) (cmd : State → Answer) (s s' : State) : Prop :=
  ∃ t t' evs, cmd s = .next t ∧ cmd s' = .next t' ∧ half t' = half t ∧
    t.trace = s.trace ++ evs ∧ t'.trace = s'.trace ++ evs

section

variable {s s' : State}

theorem txCount_congr (htx : s'.tx = s.tx) : s'.txCount = s.txCount := by
  rw [State.txCount, htx, State.txCount]

theorem execWrite_endsAlike (sid : Nat) (chunk : List Byte) (hcfg : s'.cfg = s.cfg) (htx : s'.tx = s.tx) :
    EndsAlike State.tx (execWrite sid chunk) s s' := by
  have hfull : s'.txCount = s'.cfg.maxUnacked ↔ s.txCount = s.cfg.maxUnacked := by rw [txCount_congr htx, hcfg]
  by_cases h : s.txCount = s.cfg.maxUnacked
  · exact ⟨_, _, _, execWrite_of_full sid chunk h, execWrite_of_full sid chunk (hfull.2 h), htx, rfl, rfl⟩
  have h' := mt hfull.1 h
  by_cases h0 : trimLen chunk = 0
  · exact ⟨_, _, _, execWrite_of_zero sid h h0, execWrite_of_zero sid h' h0, htx, rfl, rfl⟩
  by_cases hbig : s.cfg.maxFrame < trimLen chunk
  · exact ⟨_, _, _, execWrite_of_oversize sid h h0 hbig, execWrite_of_oversize sid h' h0 (hcfg ▸ hbig), htx, rfl, rfl⟩
  · exact ⟨_, _, [frameOf s.cfg s.tx.lastAcked s.tx.buf.length (entryOf s.cfg sid chunk), .result .ok 0],
      execWrite_of_fits sid h h0 hbig, execWrite_of_fits sid h' h0 (hcfg ▸ hbig),
      by simp [hcfg, htx], by simp, by simp [hcfg, htx]⟩

/-- The four cases of R91 change the TX state and emit as the TX state and the number say, before the RESULT. -/
theorem applyAck_congr (seq : Nat) (hcfg : s'.cfg = s.cfg) (htx : s'.tx = s.tx) :
    (applyAck seq s').tx = (applyAck seq s).tx ∧
    ∃ evs, (applyAck seq s).trace = s.trace ++ evs ∧ (applyAck seq s').trace = s'.trace ++ evs := by
  rcases applyAck_cases seq s with ⟨rfl, hA⟩ | ⟨h0, hrep, hB⟩ | ⟨h0, hne, hidx, hD⟩ | ⟨h0, hne, hidx, hC⟩
  · rw [hA, applyAck_of_zero]
    exact ⟨rfl, _, rfl, rfl⟩
  · rw [hB, applyAck_of_repeated h0 (htx ▸ hrep)]
    exact ⟨htx, _, rfl, by rw [retransmitAll_trace, hcfg, htx]⟩
  · rw [hD, applyAck_of_bad h0 (htx ▸ hne) (by rwa [txCount_congr htx, hcfg, htx])]
    exact ⟨by simp [hcfg, htx], _, rfl, rfl⟩
  · rw [hC, applyAck_of_normal h0 (htx ▸ hne) (by rw [txCount_congr htx, hcfg, htx]; omega)]
    exact ⟨by simp [hcfg, htx], _, rfl, rfl⟩

theorem execNotifyAck_endsAlike (seq : Nat) (hcfg : s'.cfg = s.cfg) (htx : s'.tx = s.tx) :
    EndsAlike State.tx (execNotifyAck seq) s s' := by
  obtain ⟨heq, evs, htr, htr'⟩ := applyAck_congr seq hcfg htx
  exact ⟨_, _, evs ++ [.result .ok 0], rfl, rfl, heq, by simp [htr], by simp [htr']⟩

theorem execCheckPacket_endsAlike (seq : Nat) (hcfg : s'.cfg = s.cfg) (hrx : s'.rx = s.rx) (hnow : s'.now = s.now) :
    EndsAlike State.rx (execCheckPacket seq) s s' := by
  have hsucc : seqSucc s'.cfg s'.rx.lastRecv = seqSucc s.cfg s.rx.lastRecv := by rw [hcfg, hrx]
  rcases execCheckPacket_cases seq s with ⟨hne, hex⟩ | ⟨heq, hlt, hex⟩ | ⟨heq, hle, hex⟩
  · exact ⟨_, _, _, hex, execCheckPacket_of_not_next (hsucc ▸ hne), hrx, rfl, rfl⟩
  · exact ⟨_, _, _, hex, execCheckPacket_of_next_in_batch (hsucc ▸ heq) (by rwa [hcfg, hrx]),
      by simp [hcfg, hrx, hnow], rfl, rfl⟩
  · exact ⟨_, _, [.ack seq, .result .ok 1], hex,
      execCheckPacket_of_next_ends_batch (hsucc ▸ heq) (by rwa [hcfg, hrx]),
      by simp [hcfg, hrx, hnow], by simp, by simp⟩

theorem execHandleTimer_endsAlike (hcfg : s'.cfg = s.cfg) (hrx : s'.rx = s.rx) (hnow : s'.now = s.now) :
    EndsAlike State.rx execHandleTimer s s' := by
  have hdue : timeReached s'.cfg s'.now s'.rx.nextAck ↔ timeReached s.cfg s.now s.rx.nextAck := by rw [hcfg, hnow, hrx]
  by_cases h : timeReached s.cfg s.now s.rx.nextAck
  · exact ⟨_, _, [.ack s.rx.lastRecv, .result .ok (BitVec.ofNat 32 s.cfg.ackIntervalMs)],
      execHandleTimer_of_due h, execHandleTimer_of_due (hdue.2 h),
      by simp [hcfg, hrx, hnow], by simp, by simp [hcfg, hrx]⟩
  · exact ⟨_, _, _, execHandleTimer_of_not_due h, execHandleTimer_of_not_due (mt hdue.1 h), hrx, rfl,
      by rw [reply_trace, hcfg, hrx, hnow]⟩

end

/-! ## The statements of the family -/

/-- Settles O50: both TX commands branch on the TX state and the operands alone, and each branch ends alike. -/
theorem txCommandsDependOnlyOnTxState : Obligations.TxCommandsDependOnlyOnTxState := by
  rintro s s' i (⟨sid, chunk, rfl⟩ | ⟨seq, rfl⟩) hcfg htx
  · exact execWrite_endsAlike sid chunk hcfg htx
  · exact execNotifyAck_endsAlike seq hcfg htx

/-- Settles O51: both RX commands branch on the RX state, `now` and the operands alone, and each branch ends alike. -/
theorem rxCommandsDependOnlyOnRxStateAndTime : Obligations.RxCommandsDependOnlyOnRxStateAndTime := by
  rintro s s' i (⟨seq, rfl⟩ | rfl) hcfg hrx hnow
  · exact execCheckPacket_endsAlike seq hcfg hrx hnow
  · exact execHandleTimer_endsAlike hcfg hrx hnow

end Sys2Proof.Machine
end
section
/-! SUPPORT. The decoder gives back the command of a well-formed command's packet and gives no other than well-formed commands
(R53 to R59), and the ring of sequence numbers: `n` steps in the one-correction form, and the distance as the inverse of steps
(R72 to R78). -/

namespace Sys2Proof.Machine

open Sys2Proof

/-! ## Decoding and encoding -/

theorem wf_write {c : Config} {sid : Nat} {chunk : List Byte} :
    (Instr.write sid chunk).Legal c ↔ sid < 2 ^ c.streamIdW ∧ chunk.length ≤ c.inMax := by
  simp [Instr.Legal, Instr.wf]

theorem wf_notifyAck {c : Config} {seq : Nat} : (Instr.notifyAck seq).Legal c ↔ seq < c.seqMod := by
  simp [Instr.Legal, Instr.wf]

theorem wf_checkPacket {c : Config} {seq : Nat} : (Instr.checkPacket seq).Legal c ↔ seq < c.seqMod := by
  simp [Instr.Legal, Instr.wf]

theorem wf_of_decodeWrite {c : Config} {sid arg : Nat} {rest : List Byte} {i : Instr}
    (h : decodeWrite c sid arg rest = .command i) : i.Legal c := by
  unfold decodeWrite at h
  split at h
  · cases h
  split at h
  · cases h
  split at h
  · cases h
  · cases h
    exact wf_write.2 (by omega)

theorem wf_of_decodeSeq {c : Config} {make : Nat → Instr} (hmake : ∀ n, n < c.seqMod → (make n).Legal c) {sid arg : Nat}
    {rest : List Byte} {i : Instr} (h : decodeSeq c make sid arg rest = .command i) : i.Legal c := by
  unfold decodeSeq at h
  split at h
  · cases h
  split at h
  · cases h
  split at h
  · cases h
  · cases h
    exact hmake arg (by omega)

theorem wf_of_decodeTimer {c : Config} {sid arg : Nat} {rest : List Byte} {i : Instr}
    (h : decodeTimer sid arg rest = .command i) : i.Legal c := by
  unfold decodeTimer at h
  split at h
  · cases h
  split at h
  · cases h
  split at h
  · cases h
  · cases h
    rfl

/-- The decoder gives only well-formed commands (R59). -/
theorem wf_of_decode {c : Config} {p : List Byte} {i : Instr} (h : decode c p = .command i) : i.Legal c := by
  unfold decode at h
  split at h
  · unfold decodeHeader at h
    split at h
    · cases h
    split at h
    · exact wf_of_decodeWrite h
    · exact wf_of_decodeSeq (fun _ => wf_notifyAck.2) h
    · exact wf_of_decodeSeq (fun _ => wf_checkPacket.2) h
    · exact wf_of_decodeTimer h
  · cases h

/-- A header packed from fields that fit is decoded by the row of its operation (R51, R52). -/
theorem decodeHeader_packHeader (c : Config) (op : Op) {sid arg : Nat} (hs : sid < 256) (ha : arg < 65536) (rest : List Byte) :
    decodeHeader c (packHeader op sid arg) rest = match op with
      | .write => decodeWrite c sid arg rest
      | .notifyAck => decodeSeq c .notifyAck sid arg rest
      | .checkPacket => decodeSeq c .checkPacket sid arg rest
      | .handleTimer => decodeTimer sid arg rest := by
  rw [decodeHeader, rsvField_packHeader op hs ha, opField_packHeader op hs ha, sidField_packHeader op hs ha,
    argField_packHeader op hs ha, Op.ofBits_bits]
  cases op <;> rfl

/-- The packet of a well-formed command decodes to that command (R53 to R57). -/
theorem decode_encode {c : Config} (hc : c.Legal) {i : Instr} (hi : i.Legal c) : decode c (encode i) = .command i := by
  have h16 := seqMod_le_65536 hc
  rw [decode_encode_eq]
  cases i with
  | write sid chunk =>
    obtain ⟨hs, ha⟩ := Instr.Legal.write_fits hc hi
    obtain ⟨hsid, hlen⟩ := wf_write.1 hi
    rw [Instr.header, decodeHeader_packHeader c .write hs ha]
    simp [decodeWrite, Instr.payload, Nat.not_le.2 hsid, Nat.not_lt.2 hlen]
  | notifyAck seq =>
    have hseq := wf_notifyAck.1 hi
    rw [Instr.header, decodeHeader_packHeader c .notifyAck (by decide) (by omega)]
    simp [decodeSeq, Instr.payload, Nat.not_le.2 hseq]
  | checkPacket seq =>
    have hseq := wf_checkPacket.1 hi
    rw [Instr.header, decodeHeader_packHeader c .checkPacket (by decide) (by omega)]
    simp [decodeSeq, Instr.payload, Nat.not_le.2 hseq]
  | handleTimer =>
    rw [Instr.header, decodeHeader_packHeader c .handleTimer (by decide) (by decide)]
    rfl

/-! ## Steps on the ring -/

theorem ringAfter_zero {c : Config} {s : Nat} (hs : s < c.seqMod) : ringAfter c s 0 = s := by
  rw [ringAfter, if_pos (by omega), Nat.add_zero]

/-- While no more than `SEQ_N` steps are taken, the next step from their end is one step more (R71, R73). -/
theorem seqSucc_ringAfter {c : Config} (h : c.Legal) {s n : Nat} (hs : s < c.seqMod) (hn : n + 1 ≤ c.seqN) :
    seqSucc c (ringAfter c s n) = ringAfter c s (n + 1) := by
  have h4 := seqMod_ge_four h
  unfold Config.seqN at hn
  unfold seqSucc ringAfter
  split_ifs <;> omega

/-- The one-correction form of `seq_advance`, within one turn of the ring (R73). -/
theorem seqAdvance_eq_ringAfter {c : Config} (h : c.Legal) {s n : Nat} (hs : s < c.seqMod) (hn : n ≤ c.seqN) :
    seqAdvance c s n = ringAfter c s n := by
  induction n with
  | zero => exact (ringAfter_zero hs).symm
  | succ n ih => rw [seqAdvance, ih (by omega), seqSucc_ringAfter h hs hn]

/-- Fewer than `SEQ_N` steps from one number end at different numbers, none at all included (R78). -/
theorem ringAfter_inj {c : Config} {s m n : Nat} (hs : s < c.seqMod) (hm : m < c.seqN) (hn : n < c.seqN)
    (heq : ringAfter c s m = ringAfter c s n) : m = n := by
  unfold Config.seqN at hm hn
  unfold ringAfter at heq
  split_ifs at heq <;> omega

/-- Steps add up (R76). -/
theorem seqAdvance_add (c : Config) (s m n : Nat) : seqAdvance c s (m + n) = seqAdvance c (seqAdvance c s m) n := by
  induction n with
  | zero => rfl
  | succ n ih => rw [← Nat.add_assoc, seqAdvance, ih, seqAdvance]

theorem seqDist_range {c : Config} {a b : Nat} (ha : a < c.seqMod) (hb : b < c.seqMod) (h0 : b ≠ 0) (hne : b ≠ a) :
    1 ≤ seqDist c a b ∧ seqDist c a b ≤ c.seqN := by
  rw [seqDist, if_neg (by tauto)]
  unfold Config.seqN
  split_ifs <;> omega

/-- The distance from `a` to `b` is a number of steps that leads from `a` to `b` (R74, R76). -/
theorem seqAdvance_seqDist {c : Config} (h : c.Legal) {a b : Nat} (ha : a < c.seqMod) (hb : b < c.seqMod) (h0 : b ≠ 0)
    (hne : b ≠ a) : seqAdvance c a (seqDist c a b) = b := by
  rw [seqAdvance_eq_ringAfter h ha (seqDist_range ha hb h0 hne).2, seqDist, if_neg (by tauto)]
  unfold ringAfter Config.seqN
  split_ifs <;> omega

/-- After `last` has moved `m` positions on, every later position's number is counted from there (R15, R97). -/
theorem seqOfPos_seqAdvance (c : Config) (last m i : Nat) : seqOfPos c (seqAdvance c last m) i = seqOfPos c last (m + i) := by
  rw [seqOfPos, seqOfPos, Nat.add_assoc, seqAdvance_add c last m (i + 1)]

/-- The number of a position of the buffer in the one-correction form (R73, R77). -/
theorem seqOfPos_eq_ringAfter {c : Config} (h : c.Legal) {last i : Nat} (hl : last < c.seqMod) (hi : i < c.seqN) :
    seqOfPos c last i = ringAfter c last (i + 1) := seqAdvance_eq_ringAfter h hl hi

end Sys2Proof.Machine
end
section
/-! SUPPORT. The effect of one command: its thirteen branches as a relation, what they leave in the TX state, the RX state and
the flags, and which numbers they emit. The frames of the commands (R26) and their commuting (R43) follow. -/

namespace Sys2Proof.Machine

/-! ## The branches of a command -/

/-- `Effect s i t`: in state `s` the command `i` takes the branch that ends in `t`, under that branch's condition. -/
inductive Effect (s : State) : Instr → State → Prop
  | writeFull (sid : Nat) (chunk : List Byte) (hfull : s.txCount = s.cfg.maxUnacked) :
      Effect s (.write sid chunk) (raise .txFull s)
  | writeDropped (sid : Nat) (chunk : List Byte) (hroom : s.txCount ≠ s.cfg.maxUnacked) (h0 : trimLen chunk = 0) :
      Effect s (.write sid chunk) (reply 0 s)
  | writeOversize (sid : Nat) (chunk : List Byte) (hroom : s.txCount ≠ s.cfg.maxUnacked)
      (hbig : s.cfg.maxFrame < trimLen chunk) : Effect s (.write sid chunk) (raise .txFatalOversize s)
  | writeSent (sid : Nat) (chunk : List Byte) (hroom : s.txCount ≠ s.cfg.maxUnacked) (h0 : trimLen chunk ≠ 0)
      (hfit : trimLen chunk ≤ s.cfg.maxFrame) :
      Effect s (.write sid chunk) (reply 0 (sendFrame (entryOf s.cfg sid chunk) s))
  | ackReset : Effect s (.notifyAck 0) (reply 0 (fullReset s))
  | ackRepeated (seq : Nat) (h0 : seq ≠ 0) (heq : seq = s.tx.lastAcked) :
      Effect s (.notifyAck seq) (reply 0 (retransmitAll s))
  | ackBad (seq : Nat) (h0 : seq ≠ 0) (hne : seq ≠ s.tx.lastAcked)
      (hidx : s.txCount ≤ seqDist s.cfg s.tx.lastAcked seq - 1) :
      Effect s (.notifyAck seq) (reply 0 (recoverBadAck seq s))
  | ackNormal (seq : Nat) (h0 : seq ≠ 0) (hne : seq ≠ s.tx.lastAcked)
      (hidx : seqDist s.cfg s.tx.lastAcked seq - 1 < s.txCount) :
      Effect s (.notifyAck seq) (reply 0 (releaseThrough seq (seqDist s.cfg s.tx.lastAcked seq - 1) s))
  | frameRejected (seq : Nat) (hne : seq ≠ seqSucc s.cfg s.rx.lastRecv) : Effect s (.checkPacket seq) (reply 0 s)
  | frameInBatch (seq : Nat) (heq : seq = seqSucc s.cfg s.rx.lastRecv) (hlt : s.rx.unacked + 1 < s.cfg.maxBeforeAck) :
      Effect s (.checkPacket seq) (reply 1 (pushDeadline (countFrame seq s)))
  | frameEndsBatch (seq : Nat) (heq : seq = seqSucc s.cfg s.rx.lastRecv) (hle : s.cfg.maxBeforeAck ≤ s.rx.unacked + 1) :
      Effect s (.checkPacket seq) (reply 1 (pushDeadline (sendAck seq (countFrame seq s))))
  | timerDue (hdue : timeReached s.cfg s.now s.rx.nextAck) :
      Effect s .handleTimer (reply (BitVec.ofNat 32 s.cfg.ackIntervalMs) (pushDeadline (sendAck s.rx.lastRecv s)))
  | timerNotDue (hearly : ¬ timeReached s.cfg s.now s.rx.nextAck) :
      Effect s .handleTimer (reply (BitVec.ofNat 32 (max 1 (timeRemaining s.cfg s.now s.rx.nextAck))) s)

/-- Every command takes one of its branches. -/
theorem exec_effect (i : Instr) (s : State) : ∃ t, exec i s = .next t ∧ Effect s i t := by
  cases i with
  | write sid chunk =>
    rcases execWrite_cases sid chunk s with ⟨hfull, h⟩ | ⟨hroom, h0, h⟩ | ⟨hroom, -, hbig, h⟩ | ⟨hroom, h0, hfit, h⟩
    · exact ⟨_, h, .writeFull sid chunk hfull⟩
    · exact ⟨_, h, .writeDropped sid chunk hroom h0⟩
    · exact ⟨_, h, .writeOversize sid chunk hroom hbig⟩
    · exact ⟨_, h, .writeSent sid chunk hroom h0 hfit⟩
  | notifyAck seq =>
    refine ⟨_, rfl, ?_⟩
    rcases applyAck_cases seq s with ⟨rfl, h⟩ | ⟨h0, heq, h⟩ | ⟨h0, hne, hidx, h⟩ | ⟨h0, hne, hidx, h⟩ <;> rw [h]
    · exact .ackReset
    · exact .ackRepeated seq h0 heq
    · exact .ackBad seq h0 hne hidx
    · exact .ackNormal seq h0 hne hidx
  | checkPacket seq =>
    rcases execCheckPacket_cases seq s with ⟨hne, h⟩ | ⟨heq, hlt, h⟩ | ⟨heq, hle, h⟩
    · exact ⟨_, h, .frameRejected seq hne⟩
    · exact ⟨_, h, .frameInBatch seq heq hlt⟩
    · exact ⟨_, h, .frameEndsBatch seq heq hle⟩
  | handleTimer =>
    rcases execHandleTimer_cases s with ⟨hdue, h⟩ | ⟨hearly, h⟩
    · exact ⟨_, h, .timerDue hdue⟩
    · exact ⟨_, h, .timerNotDue hearly⟩

section

variable {i : Instr} {s t : State}

theorem effect_of_exec (h : exec i s = .next t) : Effect s i t := by
  obtain ⟨u, hu, heff⟩ := exec_effect i s
  obtain rfl : u = t := by simpa [hu] using h
  exact heff

theorem ran_of_exec (h : exec i s = .next t) : Ran s t := by
  obtain ⟨u, hu, hran⟩ := exec_ran i s
  obtain rfl : u = t := by simpa [hu] using h
  exact hran

theorem Ran.trace_prefix (h : Ran s t) : s.trace <+: t.trace := by
  obtain ⟨evs, k, v, htr, -⟩ := h.trace
  rw [htr, List.append_assoc]
  exact List.prefix_append _ _

/-! ## What a command leaves in the schedulers and the flags -/

/-- Everything a command can do to the TX state: nothing, one new entry, an empty buffer, or the release of the oldest entries. -/
theorem exec_tx_cases (h : exec i s = .next t) :
    t.tx = s.tx ∨
    (∃ sid chunk, i = .write sid chunk ∧ s.txCount ≠ s.cfg.maxUnacked ∧ trimLen chunk ≠ 0 ∧ trimLen chunk ≤ s.cfg.maxFrame ∧
      t.tx = { s.tx with buf := s.tx.buf ++ [entryOf s.cfg sid chunk] }) ∨
    (∃ seq last, i = .notifyAck seq ∧ (last = seq ∨ last = s.tx.lastAcked) ∧ t.tx = { lastAcked := last, buf := [] }) ∨
    (∃ seq, i = .notifyAck seq ∧ seq ≠ 0 ∧ seq ≠ s.tx.lastAcked ∧
      t.tx = { lastAcked := seq, buf := s.tx.buf.drop (seqDist s.cfg s.tx.lastAcked seq - 1 + 1) }) := by
  cases effect_of_exec h with
  | writeSent sid chunk hroom h0 hfit => exact .inr (.inl ⟨sid, chunk, rfl, hroom, h0, hfit, rfl⟩)
  | ackReset => exact .inr (.inr (.inl ⟨0, 0, rfl, .inl rfl, rfl⟩))
  | ackBad seq h0 hne hidx =>
    refine .inr (.inr (.inl ⟨seq, _, rfl, ?_, recoverBadAck_tx s seq⟩))
    split
    · exact .inl rfl
    · exact .inr rfl
  | ackNormal seq h0 hne hidx => exact .inr (.inr (.inr ⟨seq, rfl, h0, hne, rfl⟩))
  | _ => exact .inl rfl

/-- Everything a command can do to the RX state: nothing, one frame counted, or the keepalive acknowledgement. -/
theorem exec_rx_cases (h : exec i s = .next t) :
    t.rx = s.rx ∨
    (∃ unacked, i = .checkPacket (seqSucc s.cfg s.rx.lastRecv) ∧ unacked ≤ s.cfg.maxBeforeAck - 1 ∧
      t.rx = {
        lastRecv := seqSucc s.cfg s.rx.lastRecv
        unacked := unacked
        nextAck := timeAdd s.cfg s.now s.cfg.ackIntervalMs }) ∨
    (i = .handleTimer ∧ t.rx = { s.rx with unacked := 0, nextAck := timeAdd s.cfg s.now s.cfg.ackIntervalMs }) := by
  cases effect_of_exec h with
  | frameInBatch seq heq hlt => exact .inr (.inl ⟨s.rx.unacked + 1, by rw [heq], by omega, by rw [← heq]; rfl⟩)
  | frameEndsBatch seq heq hle => exact .inr (.inl ⟨0, by rw [heq], by omega, by rw [← heq]; rfl⟩)
  | timerDue hdue => exact .inr (.inr ⟨rfl, rfl⟩)
  | _ => exact .inl rfl

/-- The flags WRITE leaves, from those before: TXFATAL is set by an oversize chunk with room in the buffer (R19, R132). -/
def writeFlags (c : Config) (tx : TxState) (chunk : List Byte) (st : Status) : Status :=
  if tx.buf.length ≠ c.maxUnacked ∧ c.maxFrame < trimLen chunk then { st with txFatal := true } else st

/-- The flags NOTIFY_ACK leaves, from those before: BADACK is set in case D (R19, R95, R134). -/
def ackFlags (c : Config) (tx : TxState) (seq : Nat) (st : Status) : Status :=
  if seq ≠ 0 ∧ seq ≠ tx.lastAcked ∧ tx.buf.length ≤ seqDist c tx.lastAcked seq - 1 then { st with badAck := true } else st

/-- The flags a command leaves: a function of the TX state, the command and the flags before. -/
def flagsAfter (c : Config) (tx : TxState) (i : Instr) (st : Status) : Status :=
  match i with
  | .write _ chunk => writeFlags c tx chunk st
  | .notifyAck seq => ackFlags c tx seq st
  | .checkPacket _ => st
  | .handleTimer => st

theorem exec_status (h : exec i s = .next t) : t.status = flagsAfter s.cfg s.tx i s.status := by
  cases effect_of_exec h with
  | writeFull sid chunk hfull => exact (if_neg fun hc => hc.1 hfull).symm
  | writeDropped sid chunk hroom h0 => exact (if_neg fun hc => Nat.not_lt_zero _ (h0 ▸ hc.2)).symm
  | writeOversize sid chunk hroom hbig => exact (if_pos ⟨hroom, hbig⟩).symm
  | writeSent sid chunk hroom h0 hfit => exact (if_neg fun hc => Nat.not_lt.2 hfit hc.2).symm
  | ackReset =>
    have hflags : ackFlags s.cfg s.tx 0 s.status = s.status := if_neg fun hc => hc.1 rfl
    exact hflags.symm
  | ackRepeated seq h0 heq => exact (if_neg fun hc => hc.2.1 heq).symm
  | ackBad seq h0 hne hidx => exact (if_pos ⟨h0, hne, hidx⟩).symm
  | ackNormal seq h0 hne hidx => exact (if_neg fun hc => Nat.not_lt.2 hc.2.2 hidx).symm
  | frameRejected | frameInBatch | frameEndsBatch | timerDue | timerNotDue => rfl

theorem writeFlags_badAck_cmdIll (c : Config) (tx : TxState) (chunk : List Byte) (st : Status) :
    (writeFlags c tx chunk st).badAck = st.badAck ∧ (writeFlags c tx chunk st).cmdIll = st.cmdIll := by
  unfold writeFlags
  split_ifs <;> exact ⟨rfl, rfl⟩

theorem ackFlags_txFatal_cmdIll (c : Config) (tx : TxState) (seq : Nat) (st : Status) :
    (ackFlags c tx seq st).txFatal = st.txFatal ∧ (ackFlags c tx seq st).cmdIll = st.cmdIll := by
  unfold ackFlags
  split_ifs <;> exact ⟨rfl, rfl⟩

/-- A command emits frames under numbers of positions only, and acknowledges only what the receiver stands at after it. -/
theorem exec_emits (h : exec i s = .next t) :
    ∃ evs, t.trace = s.trace ++ evs ∧ (∀ n ∈ frameSeqs evs, ∃ j, n = seqOfPos s.cfg s.tx.lastAcked j) ∧
      ∀ n ∈ ackSeqs evs, n = t.rx.lastRecv := by
  cases effect_of_exec h with
  | writeSent sid chunk hroom h0 hfit =>
    exact ⟨[frameOf s.cfg s.tx.lastAcked s.tx.buf.length (entryOf s.cfg sid chunk), .result .ok 0], by simp,
      by simp [frameOf], by simp [frameOf]⟩
  | ackReset => exact ⟨[.space, .result .ok 0], by simp, by simp, by simp⟩
  | ackRepeated seq h0 heq =>
    refine ⟨framesFrom s.cfg s.tx.lastAcked 0 s.tx.buf ++ [.result .ok 0], by simp, fun n hn => ?_, by simp⟩
    obtain ⟨j, -, rfl⟩ : ∃ j < s.tx.buf.length, seqOfPos s.cfg s.tx.lastAcked j = n := by
      simpa [frameSeqs_framesFrom] using hn
    exact ⟨j, rfl⟩
  | ackBad seq h0 hne hidx => exact ⟨[.space, .result .ok 0], by simp, by simp, by simp⟩
  | ackNormal seq h0 hne hidx => exact ⟨[.space, .result .ok 0], by simp, by simp, by simp⟩
  | frameEndsBatch seq heq hle => exact ⟨[.ack seq, .result .ok 1], by simp, by simp, by simp⟩
  | timerDue hdue => exact ⟨[.ack s.rx.lastRecv, .result .ok _], by simp; rfl, by simp, by simp⟩
  | _ => exact ⟨[_], rfl, by simp, by simp⟩

/-! ## The frames of the halves -/

/-- The commands of the TX scheduler. -/
def TxCommand (i : Instr) : Prop := (∃ sid chunk, i = .write sid chunk) ∨ ∃ seq, i = .notifyAck seq

/-- The commands of the RX scheduler. -/
def RxCommand (i : Instr) : Prop := (∃ seq, i = .checkPacket seq) ∨ i = .handleTimer

theorem rx_of_txCommand (hi : TxCommand i) (h : exec i s = .next t) : t.rx = s.rx := by
  rcases hi with ⟨sid, chunk, rfl⟩ | ⟨seq, rfl⟩
  · exact (exec_rx_cases h).resolve_right (by simp)
  · exact (exec_rx_cases h).resolve_right (by simp)

theorem tx_of_rxCommand (hi : RxCommand i) (h : exec i s = .next t) : t.tx = s.tx := by
  rcases hi with ⟨seq, rfl⟩ | rfl
  · exact (exec_tx_cases h).resolve_right (by simp)
  · exact (exec_tx_cases h).resolve_right (by simp)

theorem status_of_rxCommand (hi : RxCommand i) (h : exec i s = .next t) : t.status = s.status := by
  rcases hi with ⟨seq, rfl⟩ | rfl
  · exact exec_status h
  · exact exec_status h

theorem lastRecv_of_handleTimer (h : exec .handleTimer s = .next t) : t.rx.lastRecv = s.rx.lastRecv := by
  rcases exec_rx_cases h with hrx | ⟨_, hi, -⟩ | ⟨-, hrx⟩
  · rw [hrx]
  · cases hi
  · rw [hrx]

/-- WRITE keeps `TX.lastAcked` and adds at the end of the buffer, if it adds. -/
theorem tx_of_write {sid : Nat} {chunk : List Byte} (h : exec (.write sid chunk) s = .next t) :
    t.tx.lastAcked = s.tx.lastAcked ∧ s.tx.buf <+: t.tx.buf := by
  rcases exec_tx_cases h with htx | ⟨_, _, -, -, -, -, htx⟩ | ⟨_, _, hi, -⟩ | ⟨_, hi, -⟩
  · rw [htx]
    exact ⟨rfl, List.prefix_rfl⟩
  · rw [htx]
    exact ⟨rfl, List.prefix_append _ _⟩
  · cases hi
  · cases hi

/-- NOTIFY_ACK leaves the newest entries, all of them or none included. -/
theorem buf_of_notifyAck {seq : Nat} (h : exec (.notifyAck seq) s = .next t) : t.tx.buf <:+ s.tx.buf := by
  rcases exec_tx_cases h with htx | ⟨_, _, hi, -⟩ | ⟨_, _, -, -, htx⟩ | ⟨_, -, -, -, htx⟩
  · rw [htx]
  · cases hi
  · rw [htx]
    exact List.nil_suffix
  · rw [htx]
    exact List.drop_suffix _ _

/-- Where two states agree on the TX half, so do the states a TX command leads to (R2). -/
theorem tx_congr_of_txCommand {s' t' : State} (hi : TxCommand i) (hcfg : s'.cfg = s.cfg) (htx : s'.tx = s.tx)
    (h : exec i s = .next t) (h' : exec i s' = .next t') : t'.tx = t.tx := by
  obtain ⟨u, u', -, hu, hu', heq, -, -⟩ := txCommandsDependOnlyOnTxState s s' i hi hcfg htx
  obtain rfl : u = t := by simpa [hu] using h
  obtain rfl : u' = t' := by simpa [hu'] using h'
  exact heq

/-- Where two states agree on the RX half and `now`, so do the RX states an RX command leads to (R2). -/
theorem rx_congr_of_rxCommand {s' t' : State} (hi : RxCommand i) (hcfg : s'.cfg = s.cfg) (hrx : s'.rx = s.rx)
    (hnow : s'.now = s.now) (h : exec i s = .next t) (h' : exec i s' = .next t') : t'.rx = t.rx := by
  obtain ⟨u, u', -, hu, hu', heq, -, -⟩ := rxCommandsDependOnlyOnRxStateAndTime s s' i hi hcfg hrx hnow
  obtain rfl : u = t := by simpa [hu] using h
  obtain rfl : u' = t' := by simpa [hu'] using h'
  exact heq

theorem storeByte_congr (hcfg : t.cfg = s.cfg) (htx : t.tx = s.tx) (a : Nat) : t.storeByte a = s.storeByte a := by
  rw [State.storeByte, State.payloadStore, hcfg, htx, State.storeByte, State.payloadStore]

end

/-! ## The statements of the family -/

/-- Settles O45: what is neither scheduler stands by `Ran`; the RX state, the flags and the buffer by what the branches leave. -/
theorem txCommandsLeaveTheRestUnchanged : Obligations.TxCommandsLeaveTheRestUnchanged := by
  refine fun s t => ⟨fun sid chunk h => ?_, fun seq h => ?_⟩
  · have hran := ran_of_exec h
    have hst : t.status = writeFlags s.cfg s.tx chunk s.status := exec_status h
    obtain ⟨hbad, hill⟩ := writeFlags_badAck_cmdIll s.cfg s.tx chunk s.status
    obtain ⟨hlast, hbuf⟩ := tx_of_write h
    exact ⟨hran.cfg, rx_of_txCommand (.inl ⟨sid, chunk, rfl⟩) h, hlast, hst ▸ hbad, hst ▸ hill, hran.inReset, hran.now,
      hran.inputs, hran.pc, hran.past, hran.trace_prefix, hbuf⟩
  · have hran := ran_of_exec h
    have hst : t.status = ackFlags s.cfg s.tx seq s.status := exec_status h
    obtain ⟨hfatal, hill⟩ := ackFlags_txFatal_cmdIll s.cfg s.tx seq s.status
    exact ⟨hran.cfg, rx_of_txCommand (.inr ⟨seq, rfl⟩) h, hst ▸ hfatal, hst ▸ hill, hran.inReset, hran.now, hran.inputs,
      hran.pc, hran.past, hran.trace_prefix, buf_of_notifyAck h⟩

/-- Settles O46: what is neither scheduler stands by `Ran`; the payload store is a function of the parameters and the TX state. -/
theorem rxCommandsLeaveTheRestUnchanged : Obligations.RxCommandsLeaveTheRestUnchanged := by
  refine fun s t => ⟨fun seq h => ?_, fun h => ?_⟩
  · have hran := ran_of_exec h
    have hrx : RxCommand (.checkPacket seq) := .inl ⟨seq, rfl⟩
    have htx := tx_of_rxCommand hrx h
    exact ⟨hran.cfg, htx, status_of_rxCommand hrx h, hran.inReset, hran.now, hran.inputs, hran.pc, hran.past,
      hran.trace_prefix, storeByte_congr hran.cfg htx⟩
  · have hran := ran_of_exec h
    have hrx : RxCommand .handleTimer := .inr rfl
    have htx := tx_of_rxCommand hrx h
    exact ⟨hran.cfg, htx, lastRecv_of_handleTimer h, status_of_rxCommand hrx h, hran.inReset, hran.now, hran.inputs, hran.pc,
      hran.past, hran.trace_prefix, storeByte_congr hran.cfg htx⟩

/-- Settles O52: each command leaves the half the other one works on, so it does the same whether it comes first or second. -/
theorem txAndRxCommandsCommute : Obligations.TxAndRxCommandsCommute := by
  intro s i j hi hj
  obtain ⟨a, ha, hrana⟩ := exec_ran i s
  obtain ⟨b, hb, -⟩ := exec_ran j a
  obtain ⟨a', ha', hrana'⟩ := exec_ran j s
  obtain ⟨b', hb', -⟩ := exec_ran i a'
  have htxa' : a'.tx = s.tx := tx_of_rxCommand hj ha'
  have hrxa : a.rx = s.rx := rx_of_txCommand hi ha
  refine ⟨a, b, a', b', ha, hb, ha', hb', ?_, ?_, ?_⟩
  · calc b.tx = a.tx := tx_of_rxCommand hj hb
      _ = b'.tx := (tx_congr_of_txCommand hi hrana'.cfg htxa' ha hb').symm
  · calc b.rx = a'.rx := rx_congr_of_rxCommand hj hrana.cfg hrxa hrana.now ha' hb
      _ = b'.rx := (rx_of_txCommand hi hb').symm
  · calc b.status = a.status := status_of_rxCommand hj hb
      _ = flagsAfter s.cfg s.tx i s.status := exec_status ha
      _ = flagsAfter a'.cfg a'.tx i a'.status := by rw [hrana'.cfg, htxa', status_of_rxCommand hj ha']
      _ = b'.status := (exec_status hb').symm

end Sys2Proof.Machine
end
section
/-! SUPPORT. The invariant of the state (R24): every command keeps each scheduler's half of it, so every step keeps it; with it
the numbers of the entries differ (R24 item 3, R78) and keep to their entries (R15, R97). -/

namespace Sys2Proof.Machine

/-! ## The halves of the invariant -/

/-- The TX half of `State.Inv`. -/
structure TxState.Fits (c : Config) (tx : TxState) : Prop where
  lastAcked : tx.lastAcked < c.seqMod
  count : tx.buf.length ≤ c.maxUnacked
  entries : ∀ e ∈ tx.buf, e.Legal c

/-- The RX half of `State.Inv`. -/
structure RxState.Fits (c : Config) (rx : RxState) : Prop where
  lastRecv : rx.lastRecv < c.seqMod
  unacked : rx.unacked ≤ c.maxBeforeAck - 1
  nextAck : rx.nextAck < c.timeMod

theorem maxBeforeAck_pos {c : Config} (h : c.Legal) : 1 ≤ c.maxBeforeAck := h.2.2.2.2.2.1.1

theorem State.Inv.tx {s : State} (h : s.Inv) : s.tx.Fits s.cfg := ⟨h.lastAcked, h.count, h.entries⟩

theorem State.Inv.rx {s : State} (h : s.Inv) : s.rx.Fits s.cfg := ⟨h.lastRecv, h.unacked, h.nextAck⟩

/-- A state under the same parameters meets the invariant when its halves fit and its `now` is a time. -/
theorem inv_of_fits {s t : State} (h : s.Inv) (hcfg : t.cfg = s.cfg) (htx : t.tx.Fits s.cfg) (hrx : t.rx.Fits s.cfg)
    (hnow : t.now < s.cfg.timeMod) : t.Inv := by
  rw [← hcfg] at htx hrx hnow
  exact ⟨hcfg ▸ h.cfg, htx.lastAcked, htx.count, htx.entries, hrx.lastRecv, hrx.unacked, hrx.nextAck, hnow⟩

theorem hardwareReset_inv {c : Config} (h : c.Legal) (now : Nat) (inputs : List Input) (past : List Event) :
    State.Inv { State.hardwareReset c now with inputs := inputs, past := past } where
  cfg := h
  lastAcked := Nat.two_pow_pos _
  count := Nat.zero_le _
  entries := by simp [State.hardwareReset]
  lastRecv := Nat.two_pow_pos _
  unacked := Nat.zero_le _
  nextAck := timeAdd_lt c _ _
  now := timeWrap_lt c _

/-! ## Commands -/

/-- A chunk that is not all zero, cut to its trimmed length, ends in a non-zero byte (R82). -/
theorem take_trimLen {chunk : List Byte} (h : trimLen chunk ≠ 0) :
    ∃ body x, x ≠ 0 ∧ chunk.take (trimLen chunk) = body ++ [x] ∧ trimLen chunk = body.length + 1 := by
  rcases chunk_cases chunk with ⟨k, rfl⟩ | ⟨body, x, k, hx, rfl⟩
  · exact absurd (trimLen_zeros k) h
  · have hlen : trimLen (body ++ [x] ++ zeros k) = body.length + 1 := by rw [trimLen_append_zeros, trimLen_concat body hx]
    exact ⟨body, x, hx, by rw [hlen, List.take_left' (by simp)], hlen⟩

/-- The entry of a chunk that WRITE sends is as R13 and R24 item 2 have it. -/
theorem entryOf_legal {c : Config} (hc : c.Legal) {sid : Nat} {chunk : List Byte} (hsid : sid < 2 ^ c.streamIdW)
    (h0 : trimLen chunk ≠ 0) (hfit : trimLen chunk ≤ c.maxFrame) : (entryOf c sid chunk).Legal c := by
  obtain ⟨hmem, hle⟩ := frameRound_mem hc (Nat.one_le_iff_ne_zero.2 h0) hfit
  obtain ⟨body, x, hx, htake, hlen⟩ := take_trimLen h0
  have hdata : (entryOf c sid chunk).data = body ++ [x] ++ zeros (frameRound c (trimLen chunk) - trimLen chunk) := by
    rw [entryOf, padPayload, htake]
  refine ⟨hsid, hmem, length_padPayload (trimLen_le chunk) hle, trimLen chunk, hle, by omega, ?_, ?_, rfl⟩
  · rw [hdata, hlen]
    simpa using hx
  · rw [hdata, hlen, List.drop_left' (by simp)]
    exact fun b hb => List.eq_of_mem_replicate hb

section

variable {s t : State}

/-- A well-formed command keeps the TX half: a new entry is legal and has room, and an adopted number has the ring's width. -/
theorem exec_keeps_tx {i : Instr} (hs : s.Inv) (hi : i.Legal s.cfg) (h : exec i s = .next t) : t.tx.Fits s.cfg := by
  rcases exec_tx_cases h with htx | ⟨sid, chunk, rfl, hroom, h0, hfit, htx⟩ | ⟨seq, last, rfl, hlast, htx⟩ |
    ⟨seq, rfl, -, -, htx⟩ <;> rw [htx]
  · exact hs.tx
  · have hcount : s.tx.buf.length < s.cfg.maxUnacked := Nat.lt_of_le_of_ne hs.count hroom
    have hentry := entryOf_legal hs.cfg (wf_write.1 hi).1 h0 hfit
    refine ⟨hs.lastAcked, by simpa using hcount, fun e he => ?_⟩
    rcases List.mem_append.1 he with he | he
    · exact hs.entries e he
    · exact List.mem_singleton.1 he ▸ hentry
  · refine ⟨?_, Nat.zero_le _, by simp⟩
    rcases hlast with rfl | rfl
    · exact wf_notifyAck.1 hi
    · exact hs.lastAcked
  · refine ⟨wf_notifyAck.1 hi, ?_, fun e he => hs.entries e (List.mem_of_mem_drop he)⟩
    have hcount := hs.tx.count
    simp only [List.length_drop]
    omega

/-- A command keeps the RX half: an accepted number is the ring's next, and a full batch is acknowledged at once. -/
theorem exec_keeps_rx {i : Instr} (hs : s.Inv) (h : exec i s = .next t) : t.rx.Fits s.cfg := by
  rcases exec_rx_cases h with hrx | ⟨unacked, -, hle, hrx⟩ | ⟨-, hrx⟩ <;> rw [hrx]
  · exact hs.rx
  · exact ⟨seqSucc_lt hs.cfg hs.lastRecv, hle, timeAdd_lt _ _ _⟩
  · exact ⟨hs.lastRecv, Nat.zero_le _, timeAdd_lt _ _ _⟩

theorem exec_keeps_inv {i : Instr} (hs : s.Inv) (hi : i.Legal s.cfg) (h : exec i s = .next t) : t.Inv := by
  have hran := ran_of_exec h
  exact inv_of_fits hs hran.cfg (exec_keeps_tx hs hi h) (exec_keeps_rx hs h) (hran.now ▸ hs.now)

theorem accept_keeps_inv (hs : s.Inv) (now : Nat) : (accept now s).Inv :=
  inv_of_fits hs rfl hs.tx hs.rx (timeWrap_lt _ _)

theorem runPacket_keeps_inv {p : List Byte} (hs : s.Inv) (h : runPacket p s = .next t) : t.Inv := by
  rcases runPacket_cases p s with ⟨i, hdec, hrun⟩ | ⟨-, hrun⟩
  · exact exec_keeps_inv hs (wf_of_decode hdec) (hrun ▸ h)
  · obtain rfl : raise .illegalCommand s = t := by simpa [hrun] using h
    exact inv_of_fits hs rfl hs.tx hs.rx hs.now

/-! ## A step that takes a packet -/

theorem step_of_packet {p : List Byte} {now : Nat} {rest : List Input} (hl : s.cfg.Legal) (hrun : s.inReset = false)
    (hin : s.inputs = .packet p now :: rest) : step s = runPacket p (accept now { s with inputs := rest }) :=
  (step_of_input hl hin).trans (takePacket_of_running (s := { s with inputs := rest }) hrun p now)

theorem runPacket_of_command {p : List Byte} {i : Instr} (h : decode s.cfg p = .command i) : runPacket p s = exec i s := by
  rw [runPacket, h]

theorem runPacket_of_illegal {p : List Byte} (h : ∀ i, decode s.cfg p ≠ .command i) :
    runPacket p s = .next (raise .illegalCommand s) := by
  rcases runPacket_cases p s with ⟨i, hdec, -⟩ | ⟨-, hraise⟩
  · exact absurd hdec (h i)
  · exact hraise

/-! ## The numbers of the entries -/

theorem numbered_congr (hcfg : t.cfg = s.cfg) (htx : t.tx = s.tx) : t.numbered = s.numbered := by
  rw [State.numbered, hcfg, htx, State.numbered]

theorem numbered_of_empty (h : t.tx.buf = []) : t.numbered = [] := by rw [State.numbered, h, List.mapIdx_nil]

theorem map_fst_numbered (s : State) :
    s.numbered.map Prod.fst = (List.range s.txCount).map (seqOfPos s.cfg s.tx.lastAcked) := by
  simp [State.numbered, State.txCount, List.ext_getElem_iff]

/-- The release of the entries up to a number gives the remaining ones, at their new positions, the numbers they had (R97). -/
theorem numbered_of_release (hcfg : t.cfg = s.cfg) {m : Nat}
    (htx : t.tx = { lastAcked := seqAdvance s.cfg s.tx.lastAcked m, buf := s.tx.buf.drop m }) :
    t.numbered = s.numbered.drop m := by
  rw [State.numbered, hcfg, htx, State.numbered]
  refine List.ext_getElem (by simp) fun k _ _ => ?_
  simp [seqOfPos_seqAdvance]

/-- What one well-formed command does to the numbered entries: some of the oldest removed, or one added at the end. -/
theorem exec_numbered {i : Instr} (hs : s.Inv) (hi : i.Legal s.cfg) (h : exec i s = .next t) :
    (∃ r, t.numbered = s.numbered.drop r) ∨ ∃ new, t.numbered = s.numbered ++ [new] := by
  have hcfg := (ran_of_exec h).cfg
  rcases exec_tx_cases h with htx | ⟨sid, chunk, -, -, -, -, htx⟩ | ⟨seq, last, -, -, htx⟩ | ⟨seq, rfl, h0, hne, htx⟩
  · exact .inl ⟨0, numbered_congr hcfg htx⟩
  · refine .inr ⟨(seqOfPos s.cfg s.tx.lastAcked s.txCount, entryOf s.cfg sid chunk), ?_⟩
    rw [State.numbered, hcfg, htx, List.mapIdx_concat, State.numbered, State.txCount]
  · exact .inl ⟨s.numbered.length, by rw [numbered_of_empty (by rw [htx]), List.drop_length]⟩
  · have hseq := wf_notifyAck.1 hi
    have hdist := (seqDist_range hs.lastAcked hseq h0 hne).1
    refine .inl ⟨seqDist s.cfg s.tx.lastAcked seq, numbered_of_release hcfg ?_⟩
    rw [htx, seqAdvance_seqDist hs.cfg hs.lastAcked hseq h0 hne, Nat.sub_add_cancel hdist]

end

/-! ## The statements of the family -/

/-- Settles O38: the registers move in an accepted packet, which keeps both halves, and at the release of reset only. -/
theorem everyStepKeepsTheInvariant : Obligations.EveryStepKeepsTheInvariant := by
  intro s t hs hst
  obtain ⟨-, ⟨-, rfl⟩ | ⟨_, rest, -, rfl⟩ | ⟨p, now, rest, -, -, hrun⟩ | ⟨_, rest, evs, -, -, rfl, -⟩ |
    ⟨now, rest, -, -, rfl⟩⟩ := step_cases hst
  · exact hs
  · exact inv_of_fits hs rfl hs.tx hs.rx hs.now
  · have hwait : State.Inv { s with inputs := rest } := inv_of_fits hs rfl hs.tx hs.rx hs.now
    exact runPacket_keeps_inv (accept_keeps_inv hwait now) hrun
  · exact inv_of_fits hs rfl hs.tx hs.rx hs.now
  · exact hardwareReset_inv hs.cfg now rest _

/-- Settles O19: a WRITE adds at the end, a normal ack moves `TX.lastAcked` exactly as far as it moves the entries, and whatever
else changes the buffer empties it. -/
theorem entriesKeepTheirNumbersAcrossEveryStep : Obligations.EntriesKeepTheirNumbersAcrossEveryStep := by
  intro s t hs hst
  obtain ⟨-, ⟨-, rfl⟩ | ⟨_, rest, -, rfl⟩ | ⟨p, now, rest, -, -, hrun⟩ | ⟨_, rest, evs, -, -, rfl, -⟩ |
    ⟨now, rest, -, -, rfl⟩⟩ := step_cases hst
  · exact .inl ⟨0, rfl⟩
  · exact .inl ⟨0, rfl⟩
  · have hwait : State.Inv { s with inputs := rest } := inv_of_fits hs rfl hs.tx hs.rx hs.now
    have hnum : (accept now { s with inputs := rest }).numbered = s.numbered := numbered_congr rfl rfl
    rcases runPacket_cases p (accept now { s with inputs := rest }) with ⟨i, hdec, hexec⟩ | ⟨-, hraise⟩
    · rw [← hnum]
      exact exec_numbered (accept_keeps_inv hwait now) (wf_of_decode hdec) (hexec ▸ hrun)
    · obtain rfl : raise .illegalCommand (accept now { s with inputs := rest }) = t := by simpa [hraise] using hrun
      exact .inl ⟨0, numbered_congr rfl rfl⟩
  · exact .inl ⟨0, rfl⟩
  · exact .inl ⟨s.numbered.length, by rw [numbered_of_empty rfl, List.drop_length]⟩

/-- Settles O39: the buffer holds fewer entries than the ring has numbers, so its positions' numbers, all within one turn of
`TX.lastAcked`, differ from it and from each other. -/
theorem entryNumbersAreDistinctAndNonZero : Obligations.EntryNumbersAreDistinctAndNonZero := by
  intro s hs
  have hcount : s.txCount < s.cfg.seqN := by
    have hle := hs.count
    have hmax := maxUnacked_le hs.cfg
    unfold Config.seqN
    omega
  have hring : ∀ j < s.txCount, seqOfPos s.cfg s.tx.lastAcked j = ringAfter s.cfg s.tx.lastAcked (j + 1) :=
    fun j hj => seqOfPos_eq_ringAfter hs.cfg hs.lastAcked (by omega)
  rw [map_fst_numbered]
  constructor
  · refine List.Nodup.map_on (fun j hj k hk heq => ?_) List.nodup_range
    rw [List.mem_range] at hj hk
    rw [hring j hj, hring k hk] at heq
    exact Nat.succ_injective (ringAfter_inj hs.lastAcked (by omega) (by omega) heq)
  · intro n hn
    obtain ⟨j, hj, rfl⟩ := List.mem_map.1 hn
    rw [List.mem_range] at hj
    refine ⟨(seqOfPos_pos _ _ _).ne', seqOfPos_lt hs.cfg hs.lastAcked j, fun heq => ?_⟩
    rw [hring j hj] at heq
    have hzero := ringAfter_inj hs.lastAcked (by omega) (by omega) (heq.trans (ringAfter_zero hs.lastAcked).symm)
    omega

/-- Settles O40: an accepted packet clears no flag, and nothing else but the release of reset writes one. -/
theorem stickyFlagsStaySetUntilReset : Obligations.StickyFlagsStaySetUntilReset := by
  intro s t hno hst
  obtain ⟨-, ⟨-, rfl⟩ | ⟨_, rest, -, rfl⟩ | ⟨p, now, rest, -, -, hrun⟩ | ⟨_, rest, evs, -, -, rfl, -⟩ |
    ⟨now, rest, hin, -, -⟩⟩ := step_cases hst
  · exact ⟨id, id, id⟩
  · exact ⟨id, id, id⟩
  · have hran := ran_of_runPacket hrun
    exact ⟨hran.txFatal, hran.badAck, hran.cmdIll⟩
  · exact ⟨id, id, id⟩
  · exact absurd hin (hno now rest)

/-- Settles O60: a count of at most `m` fits `clog2(m + 1)` bits. -/
theorem statusValuesFitTheirPorts : Obligations.StatusValuesFitTheirPorts := by
  intro s hs
  have hbatch : s.cfg.maxBeforeAck ≤ 2 ^ Nat.clog 2 s.cfg.maxBeforeAck := Nat.le_pow_clog (by decide) _
  have hone := maxBeforeAck_pos hs.cfg
  have hport : 2 ^ Nat.clog 2 s.cfg.maxBeforeAck ≤ 2 ^ max 1 (Nat.clog 2 s.cfg.maxBeforeAck) :=
    Nat.pow_le_pow_right (by decide) (Nat.le_max_right _ _)
  have hunacked := hs.unacked
  refine ⟨hs.lastAcked, ?_, ?_, hs.lastRecv, ?_, hs.nextAck⟩
  · exact (Nat.lt_succ_of_le hs.count).trans_le (Nat.le_pow_clog (by decide) _)
  · exact beq_iff_eq
  · show s.rx.unacked < _
    omega

/-- Settles O5: a running block transfers the packet, and a packet that decodes runs as its command. -/
theorem stepRunsTheDecodedCommand : Obligations.StepRunsTheDecodedCommand :=
  fun s _ now rest _ hl hrun hin hdec =>
    (step_of_packet hl hrun hin).trans (runPacket_of_command (s := accept now { s with inputs := rest }) hdec)

/-- Settles O6: the packet is transferred as any other and raises IllegalCommand, whose mark is CMDILL. -/
theorem illegalPacketSetsCmdillAndReports7 : Obligations.IllegalPacketSetsCmdillAndReports7 := by
  intro s p now rest hl hrun hin hill
  have hstep : step s = .next (raise .illegalCommand (accept now { s with inputs := rest })) :=
    (step_of_packet hl hrun hin).trans (runPacket_of_illegal hill)
  refine ⟨rfl, hstep, fun t ht => ?_⟩
  obtain rfl : raise .illegalCommand (accept now { s with inputs := rest }) = t := by simpa [hstep] using ht
  exact Bool.or_true _

/-- Settles O35: the release of reset is the state of R25 under the same parameters. -/
theorem releaseOfResetLeavesTheResetValues : Obligations.ReleaseOfResetLeavesTheResetValues := by
  intro s now rest hl hreset hin
  rw [step_of_input hl hin, takeInput, releaseReset, if_pos hreset]
  rfl

/-- Settles O37: the reset values are 0, no entry, and times taken modulo `2^TIME_W`. -/
theorem resetMeetsTheInvariant : Obligations.ResetMeetsTheInvariant :=
  ⟨fun _ now inputs hc => hardwareReset_inv hc now inputs [], hardwareReset_inv (by decide) 0 [] []⟩

end Sys2Proof.Machine
end
section
/-! SUPPORT. The two ends of a link (R27, R46): what one end must keep, given the numbers its peer has sent, and that every
event at an end keeps it. -/

namespace Sys2Proof.Machine

/-! ## One end -/

/-- `Link.Inv` at one end, where `sent` are the frame numbers its peer has emitted. -/
structure EndInv (sent : List Nat) (s : State) : Prop where
  state : s.Inv
  frames : ∀ n ∈ frameSeqs s.emitted, n ≠ 0 ∧ n < s.cfg.seqMod
  lastRecv : s.rx.lastRecv = 0 ∨ s.rx.lastRecv ∈ sent
  acks : ∀ n ∈ ackSeqs s.emitted, n = 0 ∨ n ∈ sent

theorem EndInv.mono {sent sent' : List Nat} {s : State} (h : EndInv sent s) (hsub : sent ⊆ sent') : EndInv sent' s where
  state := h.state
  frames := h.frames
  lastRecv := h.lastRecv.imp_right (hsub ·)
  acks n hn := (h.acks n hn).imp_right (hsub ·)

theorem linkInv_iff (l : Link) : l.Inv ↔ ∀ d, EndInv (frameSeqs (l.at d.other).emitted) (l.at d) :=
  ⟨fun h d => ⟨h.state d, h.frames d, h.lastRecv d, h.acks d⟩,
    fun h => ⟨fun d => (h d).state, fun d => (h d).frames, fun d => (h d).lastRecv, fun d => (h d).acks⟩⟩

/-- An end is replaced: it must keep its own part, and have taken back none of the frames its peer rests on. -/
theorem linkInv_set {l : Link} (h : l.Inv) {d : Side} {t : State} (ht : EndInv (frameSeqs (l.at d.other).emitted) t)
    (hsub : frameSeqs (l.at d).emitted ⊆ frameSeqs t.emitted) : (l.set d t).Inv := by
  rw [linkInv_iff] at h ⊢
  cases d with
  | x =>
    rintro (_ | _)
    · exact ht
    · exact (h .y).mono hsub
  | y =>
    rintro (_ | _)
    · exact (h .x).mono hsub
    · exact ht

theorem hardwareReset_endInv {c : Config} (h : c.Legal) (now : Nat) (sent : List Nat) :
    EndInv sent (State.hardwareReset c now) where
  state := hardwareReset_inv h now [] []
  frames := by simp [State.emitted, State.hardwareReset]
  lastRecv := .inl rfl
  acks := by simp [State.emitted, State.hardwareReset]

section

variable {sent : List Nat} {s t : State}

theorem accept_keeps_endInv (h : EndInv sent s) (now : Nat) : EndInv sent (accept now s) :=
  ⟨accept_keeps_inv h.state now, h.frames, h.lastRecv, h.acks⟩

/-- A whole reset pulse starts the end again; the events it has emitted stay emitted (R155). -/
theorem resetPulse_keeps_endInv (h : EndInv sent s) (now : Nat) : EndInv sent (releaseReset now (assertReset s)) where
  state := hardwareReset_inv h.state.cfg now _ _
  frames n hn := h.frames n (by simpa [releaseReset, State.emitted, State.hardwareReset] using hn)
  lastRecv := .inl rfl
  acks n hn := h.acks n (by simpa [releaseReset, State.emitted, State.hardwareReset] using hn)

theorem frameSeqs_resetPulse (s : State) (now : Nat) :
    frameSeqs (releaseReset now (assertReset s)).emitted = frameSeqs s.emitted := by
  simp [releaseReset, State.emitted, State.hardwareReset]

theorem frameSeqs_subset_of_exec {i : Instr} (h : exec i s = .next t) : frameSeqs s.emitted ⊆ frameSeqs t.emitted := by
  obtain ⟨more, hmore⟩ := (ran_of_exec h).emitted
  rw [hmore, frameSeqs_append]
  exact List.subset_append_left _ _

/-- A receiver moves only to 0 or a number its peer has sent, if CHECK_PACKET is given such numbers only (R46, R110). -/
theorem exec_keeps_lastRecv {i : Instr} (h : EndInv sent s) (harr : ∀ n, i = .checkPacket n → n ∈ sent)
    (hex : exec i s = .next t) : t.rx.lastRecv = 0 ∨ t.rx.lastRecv ∈ sent := by
  rcases exec_rx_cases hex with hrx | ⟨_, hi, -, hrx⟩ | ⟨-, hrx⟩ <;> rw [hrx]
  · exact h.lastRecv
  · exact .inr (harr _ hi)
  · exact h.lastRecv

theorem exec_keeps_endInv {i : Instr} (h : EndInv sent s) (hi : i.Legal s.cfg) (harr : ∀ n, i = .checkPacket n → n ∈ sent)
    (hex : exec i s = .next t) : EndInv sent t := by
  have hran := ran_of_exec hex
  have hlast := exec_keeps_lastRecv h harr hex
  obtain ⟨evs, htr, hframes, hacks⟩ := exec_emits hex
  have hemit : t.emitted = s.emitted ++ evs := by rw [State.emitted, hran.past, htr, ← List.append_assoc, State.emitted]
  refine ⟨exec_keeps_inv h.state hi hex, fun n hn => ?_, hlast, fun n hn => ?_⟩
  · rw [hran.cfg]
    rw [hemit, frameSeqs_append, List.mem_append] at hn
    rcases hn with hn | hn
    · exact h.frames n hn
    · obtain ⟨j, rfl⟩ := hframes n hn
      exact ⟨(seqOfPos_pos _ _ _).ne', seqOfPos_lt h.state.cfg h.state.lastAcked j⟩
  · rw [hemit, ackSeqs_append, List.mem_append] at hn
    rcases hn with hn | hn
    · exact h.acks n hn
    · rw [hacks n hn]
      exact hlast

/-- The packet of a well-formed command runs that command, if the block runs at all (R39, R155). -/
theorem takePacket_encode {i : Instr} (hc : s.cfg.Legal) (hi : i.Legal s.cfg) (now : Nat) :
    takePacket (encode i) now s = if s.inReset then .next s else exec i (accept now s) := by
  rw [takePacket, runPacket_of_command (s := accept now s) (decode_encode hc hi)]

end

/-! ## The pair -/

/-- A command that a host issues keeps the pair's invariant, if CHECK_PACKET carries a number the peer has sent. -/
theorem command_keeps_linkInv {l m : Link} {d : Side} {i : Instr} {now : Nat} (h : l.Inv)
    (harr : ∀ n, i = .checkPacket n → n ∈ frameSeqs (l.at d.other).emitted) (hm : l.command d i now = .next m) : m.Inv := by
  have hend := (linkInv_iff l).1 h d
  unfold Link.command at hm
  split at hm
  · rename_i hi
    rw [takePacket_encode hend.state.cfg hi] at hm
    cases hr : (l.at d).inReset with
    | true =>
      obtain rfl : l.set d (l.at d) = m := by simpa [hr] using hm
      exact linkInv_set h hend (List.Subset.refl _)
    | false =>
      obtain ⟨t, ht, -⟩ := exec_ran i (accept now (l.at d))
      obtain rfl : l.set d t = m := by simpa [hr, ht] using hm
      exact linkInv_set h (exec_keeps_endInv (accept_keeps_endInv hend now) hi harr ht)
        (frameSeqs_subset_of_exec (s := accept now (l.at d)) ht)
  · cases hm
    exact h

/-- Settles O58: an end just reset has emitted nothing and stands at 0. -/
theorem freshLinkMeetsTheLinkInvariant : Obligations.FreshLinkMeetsTheLinkInvariant := by
  intro cx cy nowX nowY hx hy
  rw [linkInv_iff]
  rintro (_ | _)
  · exact hardwareReset_endInv hx nowX _
  · exact hardwareReset_endInv hy nowY _

/-- Settles O59: only an arrived frame makes a CHECK_PACKET, and its number is one the peer has emitted; a reset pulse takes
back no event. -/
theorem everyLinkEventKeepsTheLinkInvariant : Obligations.EveryLinkEventKeepsTheLinkInvariant := by
  intro l m e h hm
  cases e with
  | write d sid chunk now => exact command_keeps_linkInv h (by simp) hm
  | frameArrives d k now =>
    simp only [Link.step] at hm
    split at hm
    · rename_i n hn
      refine command_keeps_linkInv h (fun k hk => ?_) hm
      cases hk
      exact List.mem_of_getElem? hn
    · cases hm
      exact h
  | ackArrives d k now =>
    simp only [Link.step] at hm
    split at hm
    · exact command_keeps_linkInv h (by simp) hm
    · cases hm
      exact h
  | fullReset d now => exact command_keeps_linkInv h (by simp [Instr.resetAck]) hm
  | timer d now => exact command_keeps_linkInv h (by simp) hm
  | reset d now =>
    obtain rfl : l.set d (releaseReset now (assertReset (l.at d))) = m := by simpa [Link.step] using hm
    exact linkInv_set h (resetPulse_keeps_endInv ((linkInv_iff l).1 h d) now) fun n hn => by rwa [frameSeqs_resetPulse]

end Sys2Proof.Machine
end
section
/-! SUPPORT. The payload store under the invariant (R31): which byte of which entry an address holds, that storing a further
entry is a write at the first free slot (R32, R35), and that removing the oldest entries moves whole slots (R36). -/

namespace Sys2Proof.Machine

theorem maxFrame_pos {c : Config} (h : c.Legal) : 0 < c.maxFrame := (frameSize_le h (maxFrame_mem h)).1

theorem slotAddr_div {c : Config} (i : Nat) {k : Nat} (hk : k < c.maxFrame) : slotAddr c i k / c.maxFrame = i := by
  rw [slotAddr, Nat.mul_comm, Nat.mul_add_div (by omega), Nat.div_eq_of_lt hk, Nat.add_zero]

theorem slotAddr_mod {c : Config} (i : Nat) {k : Nat} (hk : k < c.maxFrame) : slotAddr c i k % c.maxFrame = k := by
  rw [slotAddr, Nat.mul_add_mod', Nat.mod_eq_of_lt hk]

/-! ## Writing above the highest address -/

theorem Memory.write_of_above {m : Memory} {a : Nat} (h : ∀ p ∈ m, p.1 < a) (v : Byte) : m.write a v = m ++ [(a, v)] := by
  induction m with
  | nil => rfl
  | cons p rest ih =>
    have hp := h p List.mem_cons_self
    rw [Memory.write, if_neg (by omega), if_neg (by omega), ih fun q hq => h q (List.mem_cons_of_mem _ hq), List.cons_append]

theorem memWrite_of_above {m : Memory} {addr : Nat} (h : ∀ p ∈ m, p.1 < addr) (bs : List Byte) :
    memWrite m addr bs = m ++ cellsAt addr bs := by
  induction bs generalizing m addr with
  | nil => exact (List.append_nil m).symm
  | cons b bs ih =>
    have habove : ∀ p ∈ m ++ [(addr, b)], p.1 < addr + 1 := by
      intro p hp
      rcases List.mem_append.1 hp with hp | hp
      · exact Nat.lt_succ_of_lt (h p hp)
      · simp [List.mem_singleton.1 hp]
    rw [memWrite, Memory.write_of_above h, ih habove, cellsAt, List.append_assoc, List.singleton_append]

theorem cellsFrom_concat (c : Config) (i : Nat) (es : List Entry) (e : Entry) :
    cellsFrom c i (es ++ [e]) = cellsFrom c i es ++ cellsAt (slotAddr c (i + es.length) 0) e.data := by
  induction es generalizing i with
  | nil => simp [cellsFrom]
  | cons x es ih => simp [cellsFrom, ih, Nat.add_assoc, Nat.add_comm 1]

/-! ## The padded chunk, byte by byte -/

theorem getElem?_padPayload_of_lt {chunk : List Byte} {n k : Nat} (len : Nat) (hn : n ≤ chunk.length) (hk : k < n) :
    (padPayload chunk n len)[k]? = chunk[k]? := by
  rw [padPayload, List.getElem?_append_left (by simp; omega), List.getElem?_take_of_lt hk]

theorem getElem?_padPayload_of_le {chunk : List Byte} {n k len : Nat} (hn : n ≤ chunk.length) (hk : n ≤ k) (hlen : k < len) :
    (padPayload chunk n len)[k]? = some 0 := by
  rw [padPayload, List.getElem?_append_right (by simp; omega), zeros, List.getElem?_replicate_of_lt (by simp; omega)]

/-! ## The store of a state that meets the invariant -/

section

variable {s t : State}

theorem State.Inv.data_length (hs : s.Inv) {e : Entry} (he : e ∈ s.tx.buf) : e.data.length = e.len := by
  obtain ⟨-, -, hlen, -⟩ := hs.entries e he
  exact hlen

theorem State.Inv.data_length_le (hs : s.Inv) : ∀ e ∈ s.tx.buf, e.data.length ≤ s.cfg.maxFrame := by
  intro e he
  obtain ⟨-, hmem, hlen, -⟩ := hs.entries e he
  rw [hlen]
  exact (frameSize_le hs.cfg hmem).2

/-- Every byte of the store is below the first free slot. -/
theorem payloadStore_below (hs : s.Inv) : ∀ p ∈ s.payloadStore, p.1 < slotAddr s.cfg s.txCount 0 := by
  intro p hp
  simpa [slotAddr, State.txCount] using (mem_cellsFrom hs.data_length_le hp).2

/-- An address holds byte `a % MAX_FRAME` of the entry in slot `a / MAX_FRAME` (R31). -/
theorem storeByte_eq (hs : s.Inv) (a : Nat) :
    s.storeByte a = s.tx.buf[a / s.cfg.maxFrame]?.bind fun e => e.data[a % s.cfg.maxFrame]? := by
  rw [State.storeByte, State.payloadStore, read_cellsFrom hs.data_length_le (maxFrame_pos hs.cfg),
    if_pos (Nat.zero_le _), Nat.sub_zero]

theorem storeByte_slotAddr (hs : s.Inv) {i k : Nat} {e : Entry} (he : s.tx.buf[i]? = some e) (hk : k < s.cfg.maxFrame) :
    s.storeByte (slotAddr s.cfg i k) = e.data[k]? := by
  rw [storeByte_eq hs, slotAddr_div i hk, slotAddr_mod i hk, he, Option.bind_some]

theorem storeByte_of_empty (h : t.tx.buf = []) (a : Nat) : t.storeByte a = none := by
  rw [State.storeByte, State.payloadStore, h]
  rfl

/-- A further entry is stored by a write of its data to the first free slot (R35). -/
theorem payloadStore_of_append (hs : s.Inv) (hcfg : t.cfg = s.cfg) {e : Entry} (hbuf : t.tx.buf = s.tx.buf ++ [e]) :
    t.payloadStore = memWrite s.payloadStore (slotAddr s.cfg s.txCount 0) e.data := by
  rw [memWrite_of_above (payloadStore_below hs), State.payloadStore, hcfg, hbuf, cellsFrom_concat, Nat.zero_add,
    State.payloadStore, State.txCount]

/-- Without its `r` oldest entries the store holds at each address the byte `r` slots further on (R31, R36). -/
theorem storeByte_of_drop (hs : s.Inv) (ht : t.Inv) (hcfg : t.cfg = s.cfg) {r : Nat} (hbuf : t.tx.buf = s.tx.buf.drop r)
    (a : Nat) : t.storeByte a = s.storeByte (a + r * s.cfg.maxFrame) := by
  rw [storeByte_eq ht, storeByte_eq hs, hcfg, hbuf, List.getElem?_drop, Nat.add_mul_div_right _ _ (maxFrame_pos hs.cfg),
    Nat.add_mul_mod_self_right, Nat.add_comm r]

/-! ## Which acknowledgement NOTIFY_ACK takes a number for -/

/-- The number of an entry lies within one turn of the ring after `TX.lastAcked`. -/
theorem succ_lt_seqN_of_lt_txCount (hs : s.Inv) {idx : Nat} (h : idx < s.txCount) : idx + 1 < s.cfg.seqN := by
  have hcount := hs.count
  have hmax := maxUnacked_le hs.cfg
  unfold Config.seqN
  omega

theorem ringAfter_succ_ne_zero (c : Config) (last n : Nat) : ringAfter c last (n + 1) ≠ 0 := by
  unfold ringAfter
  split_ifs <;> omega

theorem ringAfter_succ_ne_self {c : Config} {last n : Nat} (hl : last < c.seqMod) (hn : n + 1 < c.seqN) :
    ringAfter c last (n + 1) ≠ last := fun heq => by
  have hzero := ringAfter_inj hl hn (by omega) (heq.trans (ringAfter_zero hl).symm)
  omega

/-- The distance to the number `n` steps on is `n` (R74). -/
theorem seqDist_ringAfter_succ {c : Config} {last n : Nat} (hl : last < c.seqMod) (hn : n + 1 < c.seqN) :
    seqDist c last (ringAfter c last (n + 1)) = n + 1 := by
  rw [seqDist, if_neg (not_or.2 ⟨ringAfter_succ_ne_zero c last n, ringAfter_succ_ne_self hl hn⟩)]
  unfold Config.seqN at hn ⊢
  unfold ringAfter
  split_ifs <;> omega

/-- A number that is neither 0, nor `TX.lastAcked`, nor an entry's is a bad ack (R95). -/
theorem applyAck_of_no_entry (hs : s.Inv) {seq : Nat} (hseq : seq < s.cfg.seqMod) (h0 : seq ≠ 0) (hne : seq ≠ s.tx.lastAcked)
    (hno : ∀ idx, idx < s.txCount → seq ≠ ringAfter s.cfg s.tx.lastAcked (idx + 1)) :
    applyAck seq s = recoverBadAck seq s := by
  refine applyAck_of_bad h0 hne (Nat.le_of_not_lt fun hlt => hno _ hlt ?_)
  obtain ⟨hpos, hle⟩ := seqDist_range hs.lastAcked hseq h0 hne
  rw [Nat.sub_add_cancel hpos, ← seqAdvance_eq_ringAfter hs.cfg hs.lastAcked hle,
    seqAdvance_seqDist hs.cfg hs.lastAcked hseq h0 hne]

/-- The number of the entry at position `idx` is the normal ack that releases through that entry (R94). -/
theorem applyAck_of_entry (hs : s.Inv) {idx : Nat} (hidx : idx < s.txCount) :
    applyAck (ringAfter s.cfg s.tx.lastAcked (idx + 1)) s =
      releaseThrough (ringAfter s.cfg s.tx.lastAcked (idx + 1)) idx s := by
  have hring := succ_lt_seqN_of_lt_txCount hs hidx
  have hdist := seqDist_ringAfter_succ hs.lastAcked hring
  rw [applyAck_of_normal (ringAfter_succ_ne_zero _ _ _) (ringAfter_succ_ne_self hs.lastAcked hring) (by omega), hdist,
    Nat.add_sub_cancel]

end

/-! ## The statements of the family -/

/-- Settles O47: the cells of entries no longer than a slot lie in their slots, in rising order. -/
theorem payloadStoreHoldsTheEntriesInTheirSlots : Obligations.PayloadStoreHoldsTheEntriesInTheirSlots := by
  intro s hs
  refine ⟨cellsFrom_wf hs.data_length_le 0, fun p hp => ?_, fun i e he => ?_⟩
  · calc p.1 < s.txCount * s.cfg.maxFrame := payloadStore_below hs p hp
      _ ≤ s.cfg.maxUnacked * s.cfg.maxFrame := Nat.mul_le_mul_right _ hs.count
  · have hmem := List.mem_of_getElem? he
    rw [← hs.data_length hmem]
    exact memRead_eq_some fun k hk => storeByte_slotAddr hs he (hk.trans_le (hs.data_length_le e hmem))

/-- Settles O48: the new entry is a write to the first free slot, as long as the frame size; without one the TX state stays. -/
theorem writeStoresOnlyIntoItsSlot : Obligations.WriteStoresOnlyIntoItsSlot := by
  intro s t sid chunk hs hex n base len
  have hcfg := (ran_of_exec hex).cfg
  constructor
  · rintro ⟨hroom, h0, hfit⟩
    have hbuf : t.tx.buf = s.tx.buf ++ [entryOf s.cfg sid chunk] := by
      obtain rfl : reply 0 (sendFrame (entryOf s.cfg sid chunk) s) = t := by
        simpa [exec, execWrite_of_fits sid hroom h0 (Nat.not_lt.2 hfit)] using hex
      rfl
    have hstore := payloadStore_of_append hs hcfg hbuf
    have hn : n ≤ chunk.length := trimLen_le chunk
    have hlen : n ≤ len := (frameRound_mem hs.cfg (Nat.one_le_iff_ne_zero.2 h0) hfit).2
    have hbyte : ∀ a, t.storeByte a =
        if base ≤ a ∧ a < base + len then (padPayload chunk n len)[a - base]? else s.storeByte a := by
      intro a
      rw [State.storeByte, hstore, read_memWrite, entryOf, length_padPayload hn hlen, State.storeByte]
    refine ⟨hstore, fun k hk => ?_, fun k hk hk' => ?_, fun a ha => ?_⟩
    · rw [hbyte, if_pos (by omega), Nat.add_sub_cancel_left, getElem?_padPayload_of_lt len hn hk]
    · rw [hbyte, if_pos (by omega), Nat.add_sub_cancel_left, getElem?_padPayload_of_le hn hk hk']
    · rw [hbyte, if_neg (by omega)]
  · intro hno
    rcases exec_tx_cases hex with htx | ⟨_, _, hi, hroom, h0, hfit, -⟩ | ⟨_, _, hi, -⟩ | ⟨_, hi, -⟩
    · exact storeByte_congr hcfg htx
    · cases hi
      exact absurd ⟨hroom, h0, hfit⟩ hno
    · cases hi
    · cases hi

/-- Settles O49: a repeated ack keeps the TX state, the number of an entry drops the entries through it, and any other number
empties the buffer. -/
theorem notifyAckMovesWholeSlots : Obligations.NotifyAckMovesWholeSlots := by
  intro s t seq hs hseq hex
  have hcfg := (ran_of_exec hex).cfg
  have hinv := exec_keeps_inv hs (wf_notifyAck.2 hseq) hex
  obtain rfl : reply 0 (applyAck seq s) = t := by simpa [exec, execNotifyAck] using hex
  refine ⟨fun h0 heq => ?_, fun idx hidx heq => ?_, fun hcase => ?_⟩
  · exact storeByte_congr hcfg (by rw [applyAck_of_repeated h0 heq]; rfl)
  · subst heq
    exact storeByte_of_drop hs hinv hcfg (by rw [applyAck_of_entry hs hidx]; rfl)
  · refine storeByte_of_empty ?_
    by_cases h0 : seq = 0
    · rw [h0, applyAck_of_zero]
      rfl
    · obtain ⟨hne, hno⟩ := hcase.resolve_left h0
      rw [applyAck_of_no_entry hs hseq h0 hne hno]
      rfl

end Sys2Proof.Machine
end
section
/-! SUPPORT. The decoder read backwards (R51 to R59): when each row of the decoder gives a command and which, that a header with
`rsv = 0` is packed from its fields, and so that a packet is illegal exactly by R59 and otherwise the encoding of its command. -/

namespace Sys2Proof.Machine

open Sys2Proof

/-! ## When a row of the decoder gives a command -/

theorem exists_illegal_iff (d : Decoded) : (∃ why, d = .illegal why) ↔ ∀ i, d ≠ .command i := by
  cases d <;> simp

theorem decodeWrite_eq_command {c : Config} {sid arg : Nat} {rest : List Byte} {i : Instr} :
    decodeWrite c sid arg rest = .command i ↔
      .write sid rest = i ∧ sid < 2 ^ c.streamIdW ∧ arg ≤ c.inMax ∧ rest.length = arg := by
  unfold decodeWrite
  split_ifs with hsid hlong hlen
  · simp [Nat.not_lt.2 hsid]
  · simp [Nat.not_le.2 hlong]
  · simp [hlen]
  · simp [Nat.lt_of_not_le hsid, Nat.le_of_not_lt hlong, not_not.1 hlen]

theorem decodeSeq_eq_command {c : Config} {make : Nat → Instr} {sid arg : Nat} {rest : List Byte} {i : Instr} :
    decodeSeq c make sid arg rest = .command i ↔ make arg = i ∧ sid = 0 ∧ arg < c.seqMod ∧ rest = [] := by
  unfold decodeSeq
  split_ifs with hsid hseq hlen
  · simp [hsid]
  · simp [Nat.not_lt.2 hseq]
  · simp [List.length_eq_zero_iff.not.1 hlen]
  · simp [not_not.1 hsid, Nat.lt_of_not_le hseq, List.length_eq_zero_iff.1 (not_not.1 hlen)]

theorem decodeTimer_eq_command {sid arg : Nat} {rest : List Byte} {i : Instr} :
    decodeTimer sid arg rest = .command i ↔ .handleTimer = i ∧ sid = 0 ∧ arg = 0 ∧ rest = [] := by
  unfold decodeTimer
  split_ifs with hsid harg hlen
  · simp [hsid]
  · simp [harg]
  · simp [List.length_eq_zero_iff.not.1 hlen]
  · simp [not_not.1 hsid, not_not.1 harg, List.length_eq_zero_iff.1 (not_not.1 hlen)]

/-! ## When a row of the decoder rejects (R59 conditions 3 to 5) -/

theorem div_two_pow_ne_zero_iff {n k : Nat} : n / 2 ^ k ≠ 0 ↔ ¬ n < 2 ^ k :=
  (Nat.div_eq_zero_iff_lt (Nat.two_pow_pos k)).not

theorem decodeWrite_illegal_iff {c : Config} {sid arg : Nat} {rest : List Byte} :
    (∃ why, decodeWrite c sid arg rest = .illegal why) ↔
      sid / 2 ^ c.streamIdW ≠ 0 ∨ c.inMax < arg ∨ rest.length ≠ arg := by
  rw [exists_illegal_iff, div_two_pow_ne_zero_iff]
  simp only [ne_eq, decodeWrite_eq_command, not_and, forall_eq']
  simp only [imp_iff_not_or, Nat.not_le]

theorem decodeSeq_illegal_iff {c : Config} {make : Nat → Instr} {sid arg : Nat} {rest : List Byte} :
    (∃ why, decodeSeq c make sid arg rest = .illegal why) ↔ sid ≠ 0 ∨ arg / 2 ^ c.seqW ≠ 0 ∨ rest ≠ [] := by
  rw [exists_illegal_iff, div_two_pow_ne_zero_iff]
  simp only [ne_eq, decodeSeq_eq_command, not_and, forall_eq', Config.seqMod]
  simp only [imp_iff_not_or]

theorem decodeTimer_illegal_iff {sid arg : Nat} {rest : List Byte} :
    (∃ why, decodeTimer sid arg rest = .illegal why) ↔ sid ≠ 0 ∨ arg ≠ 0 ∨ rest ≠ [] := by
  rw [exists_illegal_iff]
  simp only [ne_eq, decodeTimer_eq_command, not_and, forall_eq']
  simp only [imp_iff_not_or]

/-! ## Headers -/

theorem rsvField_toNat (h : Header) : (rsvField h).toNat = h.toNat / 2 ^ 24 % 2 ^ 6 := by
  rw [rsvField, BitVec.extractLsb'_toNat, Nat.shiftRight_eq_div_pow]

/-- A header whose reserved bits are 0 is packed from an operation, a stream id and an `arg` that fit their fields (R51). -/
theorem exists_packHeader {h : Header} (hr : rsvField h = 0) :
    ∃ op sid arg, sid < 256 ∧ arg < 65536 ∧ h = packHeader op sid arg := by
  have hlt := h.isLt
  have hrsv : h.toNat / 2 ^ 24 % 2 ^ 6 = 0 := by rw [← rsvField_toNat, hr]; rfl
  have hop : (Op.ofBits (opField h)).bits.toNat = h.toNat / 2 ^ 30 := by
    rw [Op.bits_ofBits, opField, BitVec.extractLsb'_toNat, Nat.shiftRight_eq_div_pow]
    omega
  have hsid : h.toNat / 2 ^ 16 % 2 ^ 8 < 256 := Nat.mod_lt _ (by decide)
  have harg : h.toNat % 2 ^ 16 < 65536 := Nat.mod_lt _ (by decide)
  refine ⟨Op.ofBits (opField h), h.toNat / 2 ^ 16 % 2 ^ 8, h.toNat % 2 ^ 16, hsid, harg, BitVec.eq_of_toNat_eq ?_⟩
  rw [packHeader_toNat _ hsid harg, hop]
  omega

/-- The fields that a header was packed from, cut out by division (R51). -/
theorem packHeader_fields (op : Op) {sid arg : Nat} (hs : sid < 256) (ha : arg < 65536) :
    (packHeader op sid arg).toNat / 2 ^ 30 = op.bits.toNat ∧ (packHeader op sid arg).toNat / 2 ^ 24 % 2 ^ 6 = 0 ∧
    (packHeader op sid arg).toNat / 2 ^ 16 % 2 ^ 8 = sid ∧ (packHeader op sid arg).toNat % 2 ^ 16 = arg := by
  rw [packHeader_toNat op hs ha]
  omega

theorem decodeHeader_of_rsv (c : Config) {h : Header} (hr : rsvField h ≠ 0) (rest : List Byte) :
    decodeHeader c h rest = .illegal .reservedBits := if_pos hr

/-- A header and what follows it are those of the command they decode to. -/
theorem header_payload_of_decodeHeader {c : Config} {h : Header} {rest : List Byte} {i : Instr}
    (hdec : decodeHeader c h rest = .command i) : i.header = h ∧ i.payload = rest := by
  have hr : rsvField h = 0 := by
    by_contra hr
    simp [decodeHeader_of_rsv c hr] at hdec
  obtain ⟨op, sid, arg, hs, ha, rfl⟩ := exists_packHeader hr
  rw [decodeHeader_packHeader c op hs ha] at hdec
  cases op with
  | write =>
    obtain ⟨rfl, -, -, rfl⟩ := decodeWrite_eq_command.1 hdec
    exact ⟨rfl, rfl⟩
  | notifyAck =>
    obtain ⟨rfl, rfl, -, rfl⟩ := decodeSeq_eq_command.1 hdec
    exact ⟨rfl, rfl⟩
  | checkPacket =>
    obtain ⟨rfl, rfl, -, rfl⟩ := decodeSeq_eq_command.1 hdec
    exact ⟨rfl, rfl⟩
  | handleTimer =>
    obtain ⟨rfl, rfl, rfl, rfl⟩ := decodeTimer_eq_command.1 hdec
    exact ⟨rfl, rfl⟩

/-! ## Packets -/

/-- A packet has no whole header, or it is four header bytes and what follows them (R51). -/
theorem packet_cases (p : List Byte) : p.length < 4 ∨ ∃ b0 b1 b2 b3 rest, p = b0 :: b1 :: b2 :: b3 :: rest :=
  match p with
  | [] | [_] | [_, _] | [_, _, _] => .inl (by simp)
  | b0 :: b1 :: b2 :: b3 :: rest => .inr ⟨b0, b1, b2, b3, rest, rfl⟩

theorem decode_of_short (c : Config) {p : List Byte} (h : p.length < 4) : decode c p = .illegal .shortPacket := by
  unfold decode
  split
  · simp only [List.length_cons] at h
    omega
  · rfl

/-- The packet that decodes to a command is that command's encoding (R59). -/
theorem encode_of_decode {c : Config} {p : List Byte} {i : Instr} (hdec : decode c p = .command i) : encode i = p := by
  rcases packet_cases p with hshort | ⟨b0, b1, b2, b3, rest, rfl⟩
  · simp [decode_of_short c hshort] at hdec
  · obtain ⟨hheader, hpayload⟩ := header_payload_of_decodeHeader (h := header b0 b1 b2 b3) hdec
    rw [encode, hheader, hpayload, headerBytes_header]
    rfl

/-! ## The statements of the family -/

/-- Settles O1: the fields of a packed header are those it was packed from, and a well-formed operand passes its row's checks. -/
theorem decodeOfEncodeIsTheCommand : Obligations.DecodeOfEncodeIsTheCommand :=
  fun _ _ hc hi => decode_encode hc hi

/-- Settles O2: the row that gives the command has checked that nothing but the command's fields and payload is in the packet. -/
theorem legalPacketIsTheEncodingOfItsCommand : Obligations.LegalPacketIsTheEncodingOfItsCommand :=
  fun _ _ _ hdec => ⟨wf_of_decode hdec, encode_of_decode hdec⟩

/-- Settles O3: a header with `rsv = 0` is packed from the fields that the statement cuts out by division, and its operation's
row gives a command unless one of that operation's conditions holds. -/
theorem packetIsIllegalExactlyByTheFiveConditions : Obligations.PacketIsIllegalExactlyByTheFiveConditions := by
  intro c p h op rsv sid arg
  rcases packet_cases p with hshort | ⟨b0, b1, b2, b3, rest, rfl⟩
  · exact iff_of_true ⟨_, decode_of_short c hshort⟩ (.inl hshort)
  have hh : h = (header b0 b1 b2 b3).toNat := (header_toNat b0 b1 b2 b3).symm
  have hrsv : rsv = (rsvField (header b0 b1 b2 b3)).toNat := by rw [rsvField_toNat, ← hh]
  by_cases hr : rsvField (header b0 b1 b2 b3) = 0
  · obtain ⟨op', sid', arg', hs, ha, hpack⟩ := exists_packHeader hr
    obtain ⟨hop, hrsv0, hsid, harg⟩ := packHeader_fields op' hs ha
    rw [← hpack, ← hh] at hop hrsv0 hsid harg
    have hlen : (b0 :: b1 :: b2 :: b3 :: rest).length = 4 + rest.length := Nat.add_comm _ 4
    simp only [op, rsv, sid, arg, hop, hrsv0, hsid, harg, hlen, decode, hpack, decodeHeader_packHeader c op' hs ha]
    cases op' with
    | write => simp [Op.bits, decodeWrite_illegal_iff]
    | notifyAck => simp [Op.bits, decodeSeq_illegal_iff]
    | checkPacket => simp [Op.bits, decodeSeq_illegal_iff]
    | handleTimer => simp [Op.bits, decodeTimer_illegal_iff]
  · have hne : rsv ≠ 0 := fun h0 => hr (BitVec.eq_of_toNat_eq (hrsv.symm.trans h0))
    exact iff_of_true ⟨_, decodeHeader_of_rsv c hr rest⟩ (.inr (.inl hne))

/-- Settles O4: each packet is decoded by evaluation; the illegal ones fail at the check named. -/
theorem workedPacketsDecodeAsTabled : Obligations.WorkedPacketsDecodeAsTabled :=
  ⟨rfl, rfl, rfl, rfl, rfl, rfl, ⟨.reservedBits, rfl⟩, ⟨.shortPacket, rfl⟩, ⟨.chunkLength, rfl⟩, ⟨.seqHighBits, rfl⟩⟩

end Sys2Proof.Machine
end
section
/-! SUPPORT. The delay HANDLE_TIMER reports (R60, R115, R117): the wrapped difference of two times that lie close to one
starting time is their plain difference, and the reported value is the interval or that difference. -/

namespace Sys2Proof.Machine

/-! ## Wrapped differences -/

theorem timeSub_lt (c : Config) (a b : Nat) : timeSub c a b < c.timeMod := by
  have hpos : (0 : Int) < c.timeMod := Int.natCast_pos.2 (timeMod_pos c)
  have hnonneg := Int.emod_nonneg ((a : Int) - b) hpos.ne'
  have hlt := Int.emod_lt_of_pos ((a : Int) - b) hpos
  unfold timeSub
  omega

/-- The wrapped difference does not depend on the time from which both are counted. -/
theorem timeSub_timeAdd (c : Config) (t a b : Nat) : timeSub c (timeAdd c t a) (timeAdd c t b) = timeSub c a b := by
  rw [timeSub, timeAdd, timeWrap, timeAdd, timeWrap, Int.natCast_mod, Int.natCast_mod, Int.emod_sub_emod, Int.sub_emod_emod,
    Nat.cast_add, Nat.cast_add, add_sub_add_left_eq_sub, timeSub]

theorem timeSub_of_le {c : Config} {a b : Nat} (hle : b ≤ a) (ha : a < c.timeMod) : timeSub c a b = a - b := by
  have h := timeSub_add c b (a - b) (by omega)
  rwa [Nat.add_sub_cancel' hle, Nat.mod_eq_of_lt ha] at h

theorem timeSub_of_lt {c : Config} {a b : Nat} (hlt : a < b) (hb : b < c.timeMod) : timeSub c a b = c.timeMod - (b - a) := by
  have h := timeSub_add c b (c.timeMod - (b - a)) (by omega)
  rwa [show b + (c.timeMod - (b - a)) = a + c.timeMod by omega, Nat.add_mod_right, Nat.mod_eq_of_lt (hlt.trans hb)] at h

/-! ## The reported delay -/

/-- The value HANDLE_TIMER reports: the interval when the acknowledgement is due, else the time left, at least 1 (R115). -/
def timerDelay (s : State) : Nat :=
  if timeReached s.cfg s.now s.rx.nextAck then s.cfg.ackIntervalMs else max 1 (timeSub s.cfg s.rx.nextAck s.now)

theorem timerDelay_lt {s : State} (hc : s.cfg.Legal) : timerDelay s < 2 ^ 32 := by
  have hmod := timeMod_le hc
  have hhalf := timeMod_eq_half hc
  have hint := ackInterval_lt_half hc
  have hsub := timeSub_lt s.cfg s.rx.nextAck s.now
  unfold timerDelay
  split_ifs <;> omega

/-- HANDLE_TIMER completes and reports the delay as its RESULT, which fits the 32 bits of a result value (R60). -/
theorem exec_handleTimer_reports {s : State} (hc : s.cfg.Legal) :
    ∃ t evs value, exec .handleTimer s = .next t ∧ t.trace = s.trace ++ evs ++ [.result .ok value] ∧
      value.toNat = timerDelay s := by
  have hfit : (BitVec.ofNat 32 (timerDelay s)).toNat = timerDelay s := Nat.mod_eq_of_lt (timerDelay_lt hc)
  rcases execHandleTimer_cases s with ⟨hdue, h⟩ | ⟨hearly, h⟩
  · have hdelay : timerDelay s = s.cfg.ackIntervalMs := if_pos hdue
    rw [← hdelay] at h
    exact ⟨_, [.ack s.rx.lastRecv], _, h, rfl, hfit⟩
  · have hdelay : timerDelay s = max 1 (timeRemaining s.cfg s.now s.rx.nextAck) := by
      rw [timerDelay, timeRemaining, if_neg hearly, if_neg hearly]
    rw [← hdelay] at h
    exact ⟨_, [], _, h, by simp, hfit⟩

/-- Counted from the time the deadline was set at, the deadline is one interval ahead; before it the difference is what is
left of the interval, and from it on, for half the time line, the acknowledgement is due (R117, R170). -/
theorem timerDelay_bounds {s : State} {t0 d : Nat} (hc : s.cfg.Legal) (hd : d < s.cfg.ackIntervalMs + 2 ^ (s.cfg.timeW - 1))
    (hnext : s.rx.nextAck = timeAdd s.cfg t0 s.cfg.ackIntervalMs) (hnow : s.now = timeAdd s.cfg t0 d) :
    1 ≤ timerDelay s ∧ timerDelay s ≤ s.cfg.ackIntervalMs := by
  have hpos : 1 ≤ s.cfg.ackIntervalMs := hc.2.2.2.2.2.2.1.1
  have hhalf := timeMod_eq_half hc
  have hint := ackInterval_lt_half hc
  unfold timerDelay timeReached
  rw [hnext, hnow, timeSub_timeAdd, timeSub_timeAdd]
  rcases Nat.lt_or_ge d s.cfg.ackIntervalMs with hearly | hdue
  · have hsub := timeSub_of_lt (c := s.cfg) hearly (by omega)
    have hleft := timeSub_of_le (c := s.cfg) hearly.le (by omega)
    rw [if_neg (by omega), hleft]
    omega
  · have hsub := timeSub_of_le (c := s.cfg) hdue (by omega)
    rw [if_pos (by omega)]
    exact ⟨hpos, le_rfl⟩

/-! ## The statement -/

/-- Settles O25: the value of the RESULT is the delay, whose bounds are those of the deadline's distance. -/
theorem handleTimerDelayIsBetweenOneAndTheInterval : Obligations.HandleTimerDelayIsBetweenOneAndTheInterval := by
  intro s t0 d hc hd hnext hnow
  obtain ⟨t, evs, value, hex, htr, hvalue⟩ := exec_handleTimer_reports hc
  refine ⟨t, evs, value, hex, htr, ?_⟩
  rw [hvalue]
  exact timerDelay_bounds hc hd hnext hnow

end Sys2Proof.Machine
end
section
/-! SUPPORT. The frames that leave the block (R61, R70, R90): every event a command, a cut command or any other step adds is, if
it is a FRAME, that of a legal entry under a number of the ring. -/

namespace Sys2Proof.Machine

/-! ## Events that fit -/

/-- A FRAME event has a number of the ring, a frame size as length, that many bytes, and a stream id that fits (R61). -/
def Event.Fits (c : Config) (ev : Event) : Prop :=
  ∀ sid n len data, ev = .frame sid n len data →
    1 ≤ n ∧ n < c.seqMod ∧ len ∈ c.frameSizes ∧ data.length = len ∧ sid < 2 ^ c.streamIdW

@[simp] theorem Event.fits_ack (c : Config) (seq : Nat) : Event.Fits c (.ack seq) := nofun
@[simp] theorem Event.fits_space (c : Config) : Event.Fits c .space := nofun
@[simp] theorem Event.fits_result (c : Config) (k : ResultCode) (v : Word32) : Event.Fits c (.result k v) := nofun

/-- The frame of a legal entry, under the number of any position. -/
theorem frameOf_fits {c : Config} (hc : c.Legal) {last : Nat} (hl : last < c.seqMod) {e : Entry} (he : e.Legal c) (j : Nat) :
    (frameOf c last j e).Fits c := by
  obtain ⟨hsid, hmem, hlen, -⟩ := he
  rintro sid n len data ⟨⟩
  exact ⟨seqOfPos_pos c last j, seqOfPos_lt hc hl j, hmem, hlen, hsid⟩

/-! ## The events a command adds -/

/-- The trace of `t` is that of `s` and then events that fit. -/
def TraceGrowsFitting (s t : State) : Prop := ∃ evs, t.trace = s.trace ++ evs ∧ ∀ ev ∈ evs, ev.Fits s.cfg

section

variable {s t : State}

theorem exec_traceGrowsFitting {i : Instr} (hs : s.Inv) (hi : i.Legal s.cfg) (h : exec i s = .next t) :
    TraceGrowsFitting s t := by
  cases effect_of_exec h with
  | writeSent sid chunk hroom h0 hfit =>
    have hentry := entryOf_legal hs.cfg (wf_write.1 hi).1 h0 hfit
    have hframe := frameOf_fits hs.cfg hs.lastAcked hentry s.tx.buf.length
    exact ⟨[frameOf s.cfg s.tx.lastAcked s.tx.buf.length (entryOf s.cfg sid chunk), .result .ok 0], by simp, by simp [hframe]⟩
  | ackRepeated seq h0 heq =>
    refine ⟨framesFrom s.cfg s.tx.lastAcked 0 s.tx.buf ++ [.result .ok 0], by simp, fun ev hev => ?_⟩
    rcases List.mem_append.1 hev with hev | hev
    · obtain ⟨e, he, j, rfl⟩ := mem_framesFrom hev
      exact frameOf_fits hs.cfg hs.lastAcked (hs.entries e he) j
    · rw [List.mem_singleton.1 hev]
      exact Event.fits_result _ _ _
  | ackReset | ackBad | ackNormal => exact ⟨[.space, .result .ok 0], by simp, by simp⟩
  | frameEndsBatch seq heq hle => exact ⟨[.ack seq, .result .ok 1], by simp, by simp⟩
  | timerDue hdue => exact ⟨[.ack s.rx.lastRecv, .result .ok _], by simp; rfl, by simp⟩
  | _ => exact ⟨[_], rfl, by simp⟩

theorem runPacket_traceGrowsFitting {p : List Byte} (hs : s.Inv) (h : runPacket p s = .next t) : TraceGrowsFitting s t := by
  rcases runPacket_cases p s with ⟨i, hdec, hrun⟩ | ⟨-, hrun⟩
  · exact exec_traceGrowsFitting hs (wf_of_decode hdec) (hrun ▸ h)
  · obtain rfl : raise .illegalCommand s = t := by simpa [hrun] using h
    exact ⟨[.result .errIllegal 0], rfl, by simp⟩

/-- The packet at the front of the list, once taken and accepted. -/
theorem runPacket_accept_traceGrowsFitting {p : List Byte} {now : Nat} {rest : List Input} (hs : s.Inv)
    (h : runPacket p (accept now { s with inputs := rest }) = .next t) : TraceGrowsFitting s t := by
  have hwait : State.Inv { s with inputs := rest } := inv_of_fits hs rfl hs.tx hs.rx hs.now
  obtain ⟨evs, htr, hfit⟩ := runPacket_traceGrowsFitting (accept_keeps_inv hwait now) h
  exact ⟨evs, htr, hfit⟩

/-- What a cut command has let through are some of the events the whole command would have added (R155). -/
theorem mem_of_mem_eventsBeforeCut {n : Nat} {evs : List Event} (htr : t.trace = s.trace ++ evs) {ev : Event}
    (h : ev ∈ eventsBeforeCut n s t) : ev ∈ evs := by
  rw [eventsBeforeCut, htr, List.drop_left] at h
  exact List.mem_of_mem_dropLast (List.mem_of_mem_take h)

/-! ## The events a step adds -/

/-- A step adds at the end of what has been emitted, and only events that fit. -/
theorem step_emits_fitting (hs : s.Inv) (hst : step s = .next t) :
    ∃ evs, t.emitted = s.emitted ++ evs ∧ ∀ ev ∈ evs, ev.Fits s.cfg := by
  obtain ⟨-, ⟨-, rfl⟩ | ⟨_, _, -, rfl⟩ | ⟨_, _, _, -, -, hrun⟩ | ⟨_, _, evs, -, -, rfl, hcut⟩ | ⟨_, _, -, -, rfl⟩⟩ :=
    step_cases hst
  · exact ⟨[], by simp, by simp⟩
  · exact ⟨[], by simp [State.emitted], by simp⟩
  · obtain ⟨evs, htr, hfit⟩ := runPacket_accept_traceGrowsFitting hs hrun
    exact ⟨evs, by simp [State.emitted, (ran_of_runPacket hrun).past, htr], hfit⟩
  · refine ⟨evs, by simp [State.emitted], ?_⟩
    rcases hcut with rfl | ⟨_, _, _, _, -, hrun, rfl⟩
    · simp
    · obtain ⟨more, htr, hfit⟩ := runPacket_accept_traceGrowsFitting hs hrun
      exact fun ev hev => hfit ev (mem_of_mem_eventsBeforeCut htr hev)
  · exact ⟨[], by simp [State.emitted, State.hardwareReset], by simp⟩

end

/-! ## The statement -/

/-- Settles O41: an event emitted after a step was emitted before it or is one of those the step adds. -/
theorem emittedFramesAreLegal : Obligations.EmittedFramesAreLegal := by
  intro s t hs hst sid n len data hmem
  obtain ⟨evs, hemit, hfit⟩ := step_emits_fitting hs hst
  rw [hemit, List.mem_append] at hmem
  exact hmem.imp_right fun hnew => hfit _ hnew sid n len data rfl

end Sys2Proof.Machine
end

section
/-! SUPPORT. The arithmetic of the sequence numbers, the times and the chunk lengths (40_seq_arith.md): the closed forms of
`seq_advance` and `seq_dist`, the numbers of one turn of the ring, the window of a deadline, and the least frame size. -/

namespace Sys2Proof.Machine

/-! ## Closed forms of `seq_advance` -/

theorem seqSucc_zero (c : Config) : seqSucc c 0 = 1 := by
  unfold seqSucc
  split_ifs <;> rfl

/-- Counted from 1, the successor on the ring is the successor modulo `SEQ_N` (R71). -/
theorem seqSucc_mod_add_one {c : Config} (h : c.Legal) (m : Nat) :
    seqSucc c (m % c.seqN + 1) = (m + 1) % c.seqN + 1 := by
  have h4 := seqMod_ge_four h
  have hN : c.seqN = c.seqMod - 1 := rfl
  have hlt : m % c.seqN < c.seqN := Nat.mod_lt m (by omega)
  rw [← Nat.mod_add_mod, seqSucc, ← hN]
  by_cases hwrap : m % c.seqN + 1 = c.seqN
  · rw [if_pos hwrap, hwrap, Nat.mod_self]
  · rw [if_neg hwrap, Nat.mod_eq_of_lt (by omega : m % c.seqN + 1 < c.seqN)]

/-- From a number of the ring any number of steps ends where the remainder by `SEQ_N` says (R73). -/
theorem seqAdvance_of_pos {c : Config} (h : c.Legal) {s : Nat} (h1 : 1 ≤ s) (hs : s < c.seqMod) (n : Nat) :
    seqAdvance c s n = (s - 1 + n) % c.seqN + 1 := by
  induction n with
  | zero =>
    have hlt : s - 1 < c.seqN := by unfold Config.seqN; omega
    rw [seqAdvance, Nat.add_zero (s - 1), Nat.mod_eq_of_lt hlt, Nat.sub_add_cancel h1]
  | succ n ih => rw [seqAdvance, ih, seqSucc_mod_add_one h, Nat.add_assoc]

/-- The first step from 0 leads to 1; the others go around the ring from there (R73). -/
theorem seqAdvance_zero_succ {c : Config} (h : c.Legal) (n : Nat) : seqAdvance c 0 (n + 1) = n % c.seqN + 1 := by
  have h4 := seqMod_ge_four h
  calc seqAdvance c 0 (n + 1) = seqAdvance c (seqSucc c 0) n := by rw [Nat.add_comm, seqAdvance_add]; rfl
    _ = n % c.seqN + 1 := by rw [seqSucc_zero, seqAdvance_of_pos h le_rfl (by omega), Nat.sub_self, Nat.zero_add]

theorem ringAfter_zero_left {c : Config} {n : Nat} (hn : n ≤ c.seqN) : ringAfter c 0 n = n := by
  rw [ringAfter, if_pos (by rwa [Nat.zero_add]), Nat.zero_add]

/-- `SEQ_N` steps from a number of the ring are one full turn (R73). -/
theorem seqAdvance_seqN {c : Config} (h : c.Legal) {s : Nat} (h1 : 1 ≤ s) (hs : s < c.seqMod) :
    seqAdvance c s c.seqN = s := by
  have hlt : s - 1 < c.seqN := by unfold Config.seqN; omega
  rw [seqAdvance_of_pos h h1 hs, Nat.add_mod_right, Nat.mod_eq_of_lt hlt, Nat.sub_add_cancel h1]

/-! ## `seq_dist` on its domain -/

theorem seqDist_zero_left {c : Config} {b : Nat} (h0 : b ≠ 0) : seqDist c 0 b = b := by
  rw [seqDist, if_neg (by tauto), if_pos rfl]

theorem seqDist_of_lt {c : Config} {a b : Nat} (hlt : a < b) : seqDist c a b = b - a := by
  unfold seqDist
  split_ifs <;> omega

theorem seqDist_of_gt {c : Config} {a b : Nat} (h0 : b ≠ 0) (hlt : b < a) : seqDist c a b = b + c.seqN - a := by
  rw [seqDist, if_neg (by omega), if_neg (by omega), if_neg (by omega)]

/-- From a number of the ring every other number is closer than a full turn (R74). -/
theorem seqDist_le_of_pos {c : Config} {a b : Nat} (h1 : 1 ≤ a) (ha : a < c.seqMod) (hb : b < c.seqMod) (h0 : b ≠ 0)
    (hne : b ≠ a) : seqDist c a b ≤ c.seqN - 1 := by
  have hN : c.seqN = c.seqMod - 1 := rfl
  rcases Nat.lt_or_gt_of_ne hne with hlt | hlt
  · rw [seqDist_of_gt h0 hlt]; omega
  · rw [seqDist_of_lt hlt]; omega

/-- The `SEQ_N` numbers reached by one step up to a full turn are pairwise different, from 0 too (R73). -/
theorem ringAfter_inj_of_pos {c : Config} {s m n : Nat} (hm1 : 1 ≤ m) (hn1 : 1 ≤ n) (hm : m ≤ c.seqN) (hn : n ≤ c.seqN)
    (heq : ringAfter c s m = ringAfter c s n) : m = n := by
  unfold Config.seqN at hm hn
  unfold ringAfter at heq
  split_ifs at heq <;> omega

/-- Fewer steps than the distance, at least one, lead elsewhere: within a full turn no number is met twice (R74). -/
theorem seqDist_le_of_seqAdvance {c : Config} (h : c.Legal) {a b d : Nat} (ha : a < c.seqMod) (hb : b < c.seqMod)
    (h0 : b ≠ 0) (hne : b ≠ a) (hd : 1 ≤ d) (hadv : seqAdvance c a d = b) : seqDist c a b ≤ d := by
  obtain ⟨hpos, hle⟩ := seqDist_range ha hb h0 hne
  by_contra hlt
  have hring : ringAfter c a d = ringAfter c a (seqDist c a b) := by
    rw [← seqAdvance_eq_ringAfter h ha (by omega), ← seqAdvance_eq_ringAfter h ha hle, hadv,
      seqAdvance_seqDist h ha hb h0 hne]
  have := ringAfter_inj_of_pos hd hpos (by omega) hle hring
  omega

/-- The distance to the end of `d` steps, less than a full turn, is `d` (R76). -/
theorem seqDist_seqAdvance {c : Config} (h : c.Legal) {a d : Nat} (ha : a < c.seqMod) (hd : 1 ≤ d) (hlt : d < c.seqN) :
    seqDist c a (seqAdvance c a d) = d := by
  obtain ⟨n, rfl⟩ := Nat.exists_eq_add_of_le' hd
  rw [seqAdvance_eq_ringAfter h ha hlt.le, seqDist_ringAfter_succ ha hlt]

/-- From 0 a full turn has its own number, `SEQ_N`, so its distance is defined as well (R76). -/
theorem seqDist_zero_seqAdvance_seqN {c : Config} (h : c.Legal) : seqDist c 0 (seqAdvance c 0 c.seqN) = c.seqN := by
  have h4 := seqMod_ge_four h
  have hN : c.seqN = c.seqMod - 1 := rfl
  rw [seqAdvance_eq_ringAfter h (by omega) le_rfl, ringAfter_zero_left le_rfl, seqDist_zero_left (by omega)]

/-! ## The numbers of the positions -/

/-- `last` followed by the numbers of `k` positions is what 0 to `k` steps from `last` give (R77). -/
theorem cons_map_seqOfPos (c : Config) (last k : Nat) :
    last :: (List.range k).map (seqOfPos c last) = (List.range (k + 1)).map (seqAdvance c last) := by
  rw [List.range_succ_eq_map, List.map_cons, List.map_map]
  rfl

/-! ## Deadlines -/

/-- `d` milliseconds after `t`, the time forward to `t` is the rest of the time line (R81). -/
theorem timeSub_self_add {c : Config} {t d : Nat} (ht : t < c.timeMod) (hpos : 0 < d) (hd : d < c.timeMod) :
    timeSub c t ((t + d) % c.timeMod) = c.timeMod - d := by
  have h := timeSub_timeAdd c t 0 d
  rwa [timeAdd, timeAdd, timeWrap, timeWrap, Nat.add_zero, Nat.mod_eq_of_lt ht, timeSub_of_lt hpos hd, Nat.sub_zero] at h

/-! ## Trailing zeros and frame sizes -/

theorem getElem?_append_zeros {b : List Byte} {n k : Nat} (hle : b.length ≤ k) (hk : k < (b ++ zeros n).length) :
    (b ++ zeros n)[k]? = some 0 := by
  simp only [zeros, List.length_append, List.length_replicate] at hk
  rw [List.getElem?_append_right hle, zeros, List.getElem?_replicate_of_lt (by omega)]

/-- On its domain `frame_round(n)` is the first frame size, in rising order, that is at least `n` (R83). -/
theorem find?_frameSizes {c : Config} (h : c.Legal) {n : Nat} (h1 : 1 ≤ n) (h2 : n ≤ c.maxFrame) :
    c.frameSizes.find? (fun m => decide (n ≤ m)) = some (frameRound c n) := by
  rw [frameRound, if_neg (by omega)]
  cases hf : c.frameSizes.find? (fun m => decide (n ≤ m)) with
  | none => exact absurd h2 (by simpa using List.find?_eq_none.1 hf _ (maxFrame_mem h))
  | some m => rfl

/-- The frame sizes rise, so those before the one found are below `n` and those after it are greater (R5, R83). -/
theorem frameRound_le {c : Config} (h : c.Legal) {n m : Nat} (h1 : 1 ≤ n) (h2 : n ≤ c.maxFrame) (hm : m ∈ c.frameSizes)
    (hnm : n ≤ m) : frameRound c n ≤ m := by
  obtain ⟨-, before, after, hsplit, hbefore⟩ := List.find?_eq_some_iff_append.1 (find?_frameSizes h h1 h2)
  obtain ⟨-, -, ⟨-, -, hsorted, -⟩, -⟩ := h
  rw [hsplit, List.pairwise_append, List.pairwise_cons] at hsorted
  obtain ⟨-, ⟨hafter, -⟩, -⟩ := hsorted
  rw [hsplit, List.mem_append, List.mem_cons] at hm
  rcases hm with hm | rfl | hm
  · exact absurd hnm (by simpa using hbefore m hm)
  · exact le_rfl
  · exact (hafter m hm).le

/-! ## The statements of the family -/

/-- Settles O27: by induction on the steps, each one a step modulo `SEQ_N`; within one turn a single correction does. -/
theorem seqAdvanceClosedForms : Obligations.SeqAdvanceClosedForms := by
  intro c s n hc hs
  refine ⟨fun hn => ?_, fun _ h1 => seqAdvance_of_pos hc h1 hs n, fun hn => seqAdvance_eq_ringAfter hc hs hn⟩
  obtain ⟨k, rfl⟩ := Nat.exists_eq_add_of_le' hn
  exact seqAdvance_zero_succ hc k

/-- Settles O28: the distance leads from `a` to `b`, and the numbers met within one turn differ, so no fewer steps do. -/
theorem seqDistIsTheLeastDistance : Obligations.SeqDistIsTheLeastDistance := by
  intro c a b hc ha hb h0 hne
  obtain ⟨hpos, hle⟩ := seqDist_range ha hb h0 hne
  exact ⟨fun hzero => hzero ▸ seqDist_zero_left h0, fun _ => seqDist_of_lt, fun _ => seqDist_of_gt h0, hpos, fun _ => hle,
    fun h1 => seqDist_le_of_pos h1 ha hb h0 hne, seqAdvance_seqDist hc ha hb h0 hne,
    fun _ => seqDist_le_of_seqAdvance hc ha hb h0 hne⟩

/-- Settles O29: the subtraction wraps exactly when `b < a`, and then counts the reserved 0 as a step. -/
theorem seqDistHardwareForm : Obligations.SeqDistHardwareForm := by
  intro c a b hc ha hb h0 hne
  refine ⟨fun hlt => ?_, fun hlt => ?_⟩
  · rw [seqDist_of_lt hlt, Nat.add_sub_assoc hlt.le, Nat.add_mod_left, Nat.mod_eq_of_lt (by omega)]
  · rw [seqDist_of_gt h0 hlt, Nat.mod_eq_of_lt (by omega), Config.seqN]
    omega

/-- Settles O30: both are counts of steps within one turn, and steps add up. -/
theorem seqAdvanceAndSeqDistAreInverse : Obligations.SeqAdvanceAndSeqDistAreInverse := by
  intro c a hc ha
  refine ⟨fun b h1 hb hne => seqAdvance_seqDist hc ha hb (Nat.one_le_iff_ne_zero.1 h1) hne, fun d h1 hd => ?_,
    fun hzero => hzero ▸ seqDist_zero_seqAdvance_seqN hc, fun m n => (seqAdvance_add c a m n).symm⟩
  exact seqDist_seqAdvance hc ha h1 (by omega)

/-- Settles O31: fewer than `SEQ_N` steps from `last` never meet a number twice, and the full turn comes back to `last`. -/
theorem positionsHaveDistinctNumbers : Obligations.PositionsHaveDistinctNumbers := by
  intro c last k hc hl
  have h4 := seqMod_ge_four hc
  have hN : c.seqN = c.seqMod - 1 := rfl
  constructor
  · intro h1
    rw [cons_map_seqOfPos, List.nodup_map_iff_inj_on List.nodup_range]
    simp only [List.mem_range]
    constructor
    · intro hinj
      by_contra hk
      have hturn := hinj c.seqN (by omega) 0 (by omega) (seqAdvance_seqN hc h1 hl)
      omega
    · intro hk m hm n hn heq
      rw [seqAdvance_eq_ringAfter hc hl (by omega), seqAdvance_eq_ringAfter hc hl (by omega)] at heq
      exact ringAfter_inj hl (by omega) (by omega) heq
  · rintro rfl hk
    refine List.map_congr_left fun i hi => ?_
    rw [List.mem_range] at hi
    rw [seqOfPos_eq_ringAfter hc hl (by omega), ringAfter_zero_left (by omega)]

/-- Settles O32: both wrapped differences are counted from the deadline; where it has not passed, `d` is at least half the
time line. -/
theorem deadlineWindowAndTimeRemaining : Obligations.DeadlineWindowAndTimeRemaining := by
  intro c t d hc ht hd now
  have hhalf := timeMod_eq_half hc
  have hhalfPos := Nat.two_pow_pos (c.timeW - 1)
  have hreached : timeReached c now t ↔ d < 2 ^ (c.timeW - 1) := by
    rw [timeReached, show timeSub c now t = d from timeSub_add c t d hd]
  refine ⟨hreached, fun hearly => ?_⟩
  have hle : 2 ^ (c.timeW - 1) ≤ d := Nat.not_lt.1 (mt hreached.2 hearly)
  have hremaining : timeRemaining c now t = c.timeMod - d := by
    rw [timeRemaining, if_neg hearly]
    exact timeSub_self_add ht (by omega) hd
  have hlt : d < c.timeMod := hd
  rw [hremaining]
  exact ⟨rfl, by omega, by omega⟩

/-- Settles O33: a chunk is all zero, or a body, a last non-zero byte and trailing zeros; `trim_len` cuts the zeros off. -/
theorem trimLenRemovesExactlyTheTrailingZeros : Obligations.TrimLenRemovesExactlyTheTrailingZeros := by
  intro b
  refine ⟨trimLen_le b, ?_⟩
  rcases chunk_cases b with ⟨n, rfl⟩ | ⟨body, x, n, hx, rfl⟩
  · rw [trimLen_zeros]
    exact ⟨fun k hle hk => getElem?_append_zeros (b := []) hle hk, fun h => absurd rfl h⟩
  · rw [trimLen_append_zeros, trimLen_concat body hx]
    exact ⟨fun k hle hk => getElem?_append_zeros (by simpa using hle) hk, fun _ => ⟨x, by simp, hx⟩⟩

/-- Settles O34: the frame sizes rise, so the first one that is at least `n` is the least. -/
theorem frameRoundIsTheLeastFrameSize : Obligations.FrameRoundIsTheLeastFrameSize := by
  intro c n hc h1 h2
  obtain ⟨hmem, hle⟩ := frameRound_mem hc h1 h2
  exact ⟨hmem, hle, fun m hm hnm => frameRound_le hc h1 h2 hm hnm⟩

end Sys2Proof.Machine
end

section
/-! SUPPORT. The scheduler's own rules (41_tx_scheduler.md) and its hazards (R160, R164, R168, R169, R171): the state each
branch of WRITE and NOTIFY_ACK ends in, which number is which acknowledgement, and which frames a receiver accepts or drops. -/

namespace Sys2Proof.Machine

/-! ## The states the branches end in -/

section

variable (s : State)

/-- Events emitted one after the other are emitted together (R8). -/
theorem emitAll_emitAll (as bs : List Event) : emitAll bs (emitAll as s) = emitAll (as ++ bs) s := by
  rw [emitAll, emitAll, emitAll, List.append_assoc]

theorem reply_sendFrame (e : Entry) : reply 0 (sendFrame e s) = { s with
    tx := { s.tx with buf := s.tx.buf ++ [e] }
    trace := s.trace ++ [frameOf s.cfg s.tx.lastAcked s.txCount e, .result .ok 0] } :=
  emitAll_emitAll (appendEntry e s) [_] [.result .ok 0]

theorem reply_fullReset : reply 0 (fullReset s) = { s with
    tx := { lastAcked := 0, buf := [] }
    trace := s.trace ++ [.space, .result .ok 0] } :=
  emitAll_emitAll (setLastAcked 0 (clearBuffer s)) [.space] [.result .ok 0]

theorem reply_retransmitAll : reply 0 (retransmitAll s) = { s with
    trace := s.trace ++ (framesFrom s.cfg s.tx.lastAcked 0 s.tx.buf ++ [.result .ok 0]) } :=
  emitAll_emitAll s _ [.result .ok 0]

theorem reply_releaseThrough (seq idx : Nat) : reply 0 (releaseThrough seq idx s) = { s with
    tx := { lastAcked := seq, buf := s.tx.buf.drop (idx + 1) }
    trace := s.trace ++ [.space, .result .ok 0] } :=
  emitAll_emitAll (setLastAcked seq (dropOldest (idx + 1) s)) [.space] [.result .ok 0]

theorem reply_recoverBadAck (seq : Nat) : reply 0 (recoverBadAck seq s) = { s with
    tx := { lastAcked := if s.cfg.txBadackAdopt then seq else s.tx.lastAcked, buf := [] }
    status := { s.status with badAck := true }
    trace := s.trace ++ [.space, .result .ok 0] } :=
  emitAll_emitAll (markCondition .badAck (setLastAcked _ (clearBuffer s))) [.space] [.result .ok 0]

end

theorem recoverBadAck_tx_of_keep (seq : Nat) {s : State} (h : s.cfg.txBadackAdopt = false) :
    (recoverBadAck seq s).tx = { lastAcked := s.tx.lastAcked, buf := [] } := by
  simp [h]

/-! ## The chunk of a WRITE -/

theorem padPayload_append_zeros (chunk : List Byte) (k len : Nat) :
    padPayload (chunk ++ zeros k) (trimLen chunk) len = padPayload chunk (trimLen chunk) len := by
  rw [padPayload, padPayload, List.take_append_of_le_length (trimLen_le chunk)]

theorem execWrite_append_zeros (s : State) (sid : Nat) (chunk : List Byte) (k : Nat) :
    execWrite sid (chunk ++ zeros k) s = execWrite sid chunk s := by
  simp only [execWrite, trimLen_append_zeros, padPayload_append_zeros]

/-- The least frame size that holds `n` bytes is `frame_round(n)` (R83). -/
theorem frameRound_eq_of_least {c : Config} (h : c.Legal) {n len : Nat} (h1 : 1 ≤ n) (hmem : len ∈ c.frameSizes)
    (hle : n ≤ len) (hleast : ∀ m ∈ c.frameSizes, n ≤ m → len ≤ m) : frameRound c n = len := by
  have hfit : n ≤ c.maxFrame := hle.trans (frameSize_le h hmem).2
  obtain ⟨hrmem, hrle⟩ := frameRound_mem h h1 hfit
  exact le_antisymm (frameRound_le h h1 hfit hmem hle) (hleast _ hrmem hrle)

/-- The entry of a chunk that ends in a non-zero byte: the chunk, padded to the frame size (R88). -/
theorem entryOf_concat {c : Config} {sid len : Nat} {body : List Byte} {last : Byte} (hlast : last ≠ 0)
    (hround : frameRound c (body.length + 1) = len) :
    entryOf c sid (body ++ [last]) =
      { sid := sid, len := len, data := body ++ [last] ++ zeros (len - (body.length + 1)) } := by
  rw [entryOf, trimLen_concat body hlast, hround, padPayload, List.take_of_length_le (by simp)]

/-! ## Which number is which acknowledgement -/

theorem seqOfPos_zero (c : Config) (last : Nat) : seqOfPos c last 0 = seqSucc c last := rfl

theorem seqSucc_seqAdvance (c : Config) (last n : Nat) : seqSucc c (seqAdvance c last n) = seqOfPos c last n := rfl

/-- Two positions within one turn of the ring have different numbers (R78). -/
theorem seqOfPos_ne_of_lt {c : Config} (h : c.Legal) {last i j : Nat} (hl : last < c.seqMod) (hij : i < j)
    (hj : j < c.seqN) : seqOfPos c last i ≠ seqOfPos c last j := by
  rw [seqOfPos_eq_ringAfter h hl (hij.trans hj), seqOfPos_eq_ringAfter h hl hj]
  intro heq
  have := ringAfter_inj_of_pos (by omega) (by omega) (by omega) (by omega) heq
  omega

/-- Two numbers have the same successor only if they are equal or the two ends that are both followed by 1 (R71). -/
theorem seqSucc_inj {c : Config} {a b : Nat} (h : seqSucc c a = seqSucc c b) :
    a = b ∨ (a = 0 ∧ b = c.seqMod - 1) ∨ (a = c.seqMod - 1 ∧ b = 0) := by
  unfold seqSucc at h
  split_ifs at h <;> omega

/-- The buffer is shorter than one turn of the ring (R5). -/
theorem lt_seqN_of_le_maxUnacked {c : Config} (h : c.Legal) {n : Nat} (hn : n ≤ c.maxUnacked) : n < c.seqN := by
  have hmax := maxUnacked_le h
  unfold Config.seqN
  omega

theorem ringAfter_seqDist {c : Config} (h : c.Legal) {a b : Nat} (ha : a < c.seqMod) (hb : b < c.seqMod) (h0 : b ≠ 0)
    (hne : b ≠ a) : ringAfter c a (seqDist c a b) = b := by
  rw [← seqAdvance_eq_ringAfter h ha (seqDist_range ha hb h0 hne).2, seqAdvance_seqDist h ha hb h0 hne]

/-- Steps in the one-correction form add up within one turn (R76). -/
theorem ringAfter_ringAfter {c : Config} (h : c.Legal) {s m n : Nat} (hs : s < c.seqMod) (hmn : m + n ≤ c.seqN) :
    ringAfter c (ringAfter c s m) n = ringAfter c s (m + n) := by
  have hm := seqAdvance_eq_ringAfter h hs (n := m) (by omega)
  rw [← hm, ← seqAdvance_eq_ringAfter h (seqAdvance_lt h hs m) (by omega), ← seqAdvance_eq_ringAfter h hs hmn,
    seqAdvance_add]

/-- Less than a full turn, at least one step, leads to another number (R78). -/
theorem ringAfter_ne_self {c : Config} {s n : Nat} (hs : s < c.seqMod) (hpos : 1 ≤ n) (hn : n < c.seqN) :
    ringAfter c s n ≠ s := by
  obtain ⟨m, rfl⟩ := Nat.exists_eq_add_of_le' hpos
  exact ringAfter_succ_ne_self hs hn

/-- The retransmitted frames of no more entries than one turn of the ring, their numbers in the one-correction form (R93). -/
theorem framesFrom_eq_mapIdx_ringAfter {c : Config} (h : c.Legal) {last : Nat} (hl : last < c.seqMod) {es : List Entry}
    (hes : es.length ≤ c.seqN) : framesFrom c last 0 es =
      es.mapIdx (fun i e => .frame e.sid (ringAfter c last (i + 1)) e.len e.data) := by
  rw [framesFrom_eq_mapIdx]
  refine List.ext_getElem (by simp) fun i hi hi' => ?_
  have hlt : i < es.length := by simpa using hi
  rw [List.getElem_mapIdx, List.getElem_mapIdx, frameOf, Nat.zero_add, seqOfPos_eq_ringAfter h hl (by omega)]

section

variable {s : State}

theorem exec_notifyAck_of_repeated (h0 : s.tx.lastAcked ≠ 0) :
    exec (.notifyAck s.tx.lastAcked) s = .next (reply 0 (retransmitAll s)) := by
  rw [exec, execNotifyAck, applyAck_of_repeated h0 rfl]

/-- The number of the entry at position `idx` is a normal ack, in every state whose entries fit one turn of the ring (R94). -/
theorem exec_notifyAck_of_entry (hl : s.tx.lastAcked < s.cfg.seqMod) {idx : Nat} (hidx : idx < s.txCount)
    (hring : idx + 1 < s.cfg.seqN) : exec (.notifyAck (ringAfter s.cfg s.tx.lastAcked (idx + 1))) s =
      .next (reply 0 (releaseThrough (ringAfter s.cfg s.tx.lastAcked (idx + 1)) idx s)) := by
  have hdist := seqDist_ringAfter_succ hl hring
  rw [exec, execNotifyAck, applyAck_of_normal (ringAfter_succ_ne_zero _ _ _) (ringAfter_succ_ne_self hl hring) (by omega),
    hdist, Nat.add_sub_cancel]

/-- A number that is neither 0, nor `TX.lastAcked`, nor an entry's is a bad ack, with any entries in the buffer (R95). -/
theorem exec_notifyAck_of_no_entry (hc : s.cfg.Legal) (hl : s.tx.lastAcked < s.cfg.seqMod) {seq : Nat}
    (hseq : seq < s.cfg.seqMod) (h0 : seq ≠ 0) (hne : seq ≠ s.tx.lastAcked)
    (hno : ∀ i, i < s.txCount → seq ≠ ringAfter s.cfg s.tx.lastAcked (i + 1)) :
    exec (.notifyAck seq) s = .next (reply 0 (recoverBadAck seq s)) := by
  have hidx : s.txCount ≤ seqDist s.cfg s.tx.lastAcked seq - 1 := Nat.le_of_not_lt fun hlt => hno _ hlt <| by
    rw [Nat.sub_add_cancel (seqDist_range hl hseq h0 hne).1, ringAfter_seqDist hc hl hseq h0 hne]
  rw [exec, execNotifyAck, applyAck_of_bad h0 hne hidx]

end

/-! ## The receiver's side -/

theorem exec_checkPacket_of_not_next {r : State} {n : Nat} (h : n ≠ seqSucc r.cfg r.rx.lastRecv) :
    exec (.checkPacket n) r = .next (emitAll [.result .ok 0] r) := execCheckPacket_of_not_next h

/-- The successor of `RX.lastRecv` is accepted with RESULT(0, 1) and is the number the receiver stands at then (R110). -/
theorem exec_checkPacket_of_next {r : State} {n : Nat} (h : n = seqSucc r.cfg r.rx.lastRecv) :
    ∃ t evs, exec (.checkPacket n) r = .next t ∧ t.cfg = r.cfg ∧ t.rx.lastRecv = n ∧ t.trace = r.trace ++ evs ∧
      resultPort evs = [(0, 1)] := by
  by_cases hbatch : r.rx.unacked + 1 < r.cfg.maxBeforeAck
  · exact ⟨_, [.result .ok 1], execCheckPacket_of_next_in_batch h hbatch, rfl, rfl, rfl, rfl⟩
  · exact ⟨_, [.ack n, .result .ok 1], execCheckPacket_of_next_ends_batch h (Nat.le_of_not_lt hbatch), rfl, rfl,
      List.append_assoc r.trace [.ack n] [.result .ok 1], rfl⟩

theorem receiveAll_cons {n : Nat} {r t : State} (h : exec (.checkPacket n) r = .next t) (ns : List Nat) :
    receiveAll (n :: ns) r = receiveAll ns t := by
  rw [receiveAll, h]

/-- Frames of which none has the expected number are all dropped (R111). -/
theorem receiveAll_of_none_next {ns : List Nat} {r : State} (h : ∀ n ∈ ns, n ≠ seqSucc r.cfg r.rx.lastRecv) :
    receiveAll ns r = .next (emitAll (List.replicate ns.length (.result .ok 0)) r) := by
  induction ns generalizing r with
  | nil => simp [receiveAll, emitAll]
  | cons n ns ih =>
    obtain ⟨hn, hns⟩ := List.forall_mem_cons.1 h
    calc receiveAll (n :: ns) r
      _ = receiveAll ns (emitAll [.result .ok 0] r) := receiveAll_cons (exec_checkPacket_of_not_next hn) ns
      _ = .next (emitAll (List.replicate ns.length (.result .ok 0)) (emitAll [.result .ok 0] r)) := ih hns
      _ = .next (emitAll (List.replicate (ns.length + 1) (.result .ok 0)) r) := congrArg _ (emitAll_emitAll r _ _)

/-- Frames with the numbers of `n` positions in a row, given to a receiver that stands just before them, are all accepted, and the
receiver ends at the last of them (R110). -/
theorem receiveAll_of_positions {c : Config} {last i : Nat} (n : Nat) {r : State} (hw : r.cfg.seqW = c.seqW)
    (hr : r.rx.lastRecv = seqAdvance c last i) :
    ∃ t evs, receiveAll ((List.range' i n).map (seqOfPos c last)) r = .next t ∧ t.trace = r.trace ++ evs ∧
      resultPort evs = List.replicate n (0, 1) ∧ t.rx.lastRecv = seqAdvance c last (i + n) := by
  induction n generalizing i r with
  | zero => exact ⟨r, [], rfl, (List.append_nil _).symm, rfl, hr⟩
  | succ n ih =>
    have hnext : seqOfPos c last i = seqSucc r.cfg r.rx.lastRecv := by
      rw [hr, seqSucc_congr hw, seqSucc_seqAdvance]
    obtain ⟨t, evs, hex, hcfg, hlast, htr, hres⟩ := exec_checkPacket_of_next hnext
    obtain ⟨u, evs', hex', htr', hres', hlast'⟩ := ih (hcfg ▸ hw) hlast
    refine ⟨u, evs ++ evs', ?_, ?_, ?_, ?_⟩
    · rw [List.range'_succ, List.map_cons, receiveAll_cons hex, hex']
    · rw [htr', htr, List.append_assoc]
    · rw [resultPort_append, hres, hres']
      rfl
    · rw [hlast', Nat.add_assoc, Nat.add_comm 1]

/-- A repeated ack emits one frame for each position, in order (R93). -/
theorem exec_notifyAck_repeated_frames {s : State} (h0 : s.tx.lastAcked ≠ 0) :
    ∃ t evs, exec (.notifyAck s.tx.lastAcked) s = .next t ∧ t.trace = s.trace ++ evs ∧
      frameSeqs evs = (List.range' 0 s.txCount).map (seqOfPos s.cfg s.tx.lastAcked) := by
  refine ⟨_, framesFrom s.cfg s.tx.lastAcked 0 s.tx.buf ++ [.result .ok 0], exec_notifyAck_of_repeated h0, ?_, ?_⟩
  · rw [reply_retransmitAll]
  · rw [frameSeqs_append, frameSeqs_framesFrom, frameSeqs_result, frameSeqs_nil, List.append_nil, State.txCount]

/-! ## The statements of the family -/

/-- Settles O13: the chunk's entry is the padded body and last byte, and its position's number lies within one turn. -/
theorem writeSendsTheTrimmedPaddedFrame : Obligations.WriteSendsTheTrimmedPaddedFrame := by
  intro s sid body last k len hc hl hroom hlast hmem hle hleast data
  have htrim : trimLen (body ++ [last]) = body.length + 1 := trimLen_concat body hlast
  have hfit : body.length + 1 ≤ s.cfg.maxFrame := hle.trans (frameSize_le hc hmem).2
  have hround := frameRound_eq_of_least hc (Nat.le_add_left 1 _) hmem hle hleast
  rw [exec, execWrite_append_zeros, execWrite_of_fits sid hroom.ne (by omega) (by omega), entryOf_concat hlast hround,
    reply_sendFrame, frameOf, seqOfPos_eq_ringAfter hc hl (lt_seqN_of_le_maxUnacked hc hroom.le)]

/-- Settles O14: trimming and padding read the chunk up to its trimmed length only. -/
theorem trailingZerosOfAChunkMakeNoDifference : Obligations.TrailingZerosOfAChunkMakeNoDifference :=
  execWrite_append_zeros

/-- Settles O16: the frames are those of the positions, whose numbers lie within one turn of the ring. -/
theorem repeatedAckRetransmitsEveryEntry : Obligations.RepeatedAckRetransmitsEveryEntry := by
  intro s hc hl hcount h0
  rw [exec_notifyAck_of_repeated h0, reply_retransmitAll,
    framesFrom_eq_mapIdx_ringAfter hc hl (lt_seqN_of_le_maxUnacked hc hcount).le, List.append_assoc]

/-- Settles O17: the distance from `TX.lastAcked` to an entry's number is its position plus 1. -/
theorem normalAckReleasesThroughItsEntry : Obligations.NormalAckReleasesThroughItsEntry := by
  intro s idx hc hl hcount hidx seq
  rw [exec_notifyAck_of_entry hl hidx (lt_seqN_of_le_maxUnacked hc (by omega)), reply_releaseThrough]

/-- Settles O18: a number at a distance within the buffer would be an entry's. -/
theorem badAckClearsTheBuffer : Obligations.BadAckClearsTheBuffer := by
  intro s seq hc hl _ hseq h0 hne hno
  rw [exec_notifyAck_of_no_entry hc hl hseq h0 hne hno, reply_recoverBadAck]

/-- Settles O53: `TX.lastAcked` and every entry's number are at most `back` plus the count steps after `old`, so none is `old`. -/
theorem staleAckIsABadAck : Obligations.StaleAckIsABadAck := by
  intro s old back hc hl h1 hold hback hlong hlast
  have hno : ∀ i, i < s.txCount → old ≠ ringAfter s.cfg s.tx.lastAcked (i + 1) := fun i hi => by
    rw [hlast, ringAfter_ringAfter hc hold (by omega)]
    exact (ringAfter_ne_self hold (by omega) (by omega)).symm
  have hne : old ≠ s.tx.lastAcked := hlast ▸ (ringAfter_ne_self hold hback (by omega)).symm
  rw [exec_notifyAck_of_no_entry hc hl hold (by omega) hne hno, reply_recoverBadAck]

/-- Settles O54: after adoption both ends count from the same number. -/
theorem adoptionRealignsSenderAndReceiver : Obligations.AdoptionRealignsSenderAndReceiver := by
  intro s r seq hc hl _ hadopt hw hr hseq h0 hne hno
  have hbad := exec_notifyAck_of_no_entry hc hl hseq h0 hne hno
  have hnext : seqOfPos s.cfg seq 0 = seqSucc r.cfg r.rx.lastRecv := by
    rw [hr, seqSucc_congr hw, seqOfPos_zero]
  obtain ⟨r', -, hex, -, hlast, -⟩ := exec_checkPacket_of_next hnext
  rw [reply_recoverBadAck, hadopt] at hbad
  exact ⟨_, r', hbad, hex, hlast⟩

/-- Settles O55: the sender keeps its number, so its next number is not the one after `seq`, and `seq` is no entry's in the empty
buffer either. -/
theorem withoutAdoptionABadAckRepeats : Obligations.WithoutAdoptionABadAckRepeats := by
  intro s r seq hc hl _ hkeep hw hr hseq h0 hne hexc hno
  have hkeep' : (reply 0 (recoverBadAck seq s)).cfg.txBadackAdopt = false := hkeep
  have htx : (reply 0 (recoverBadAck seq s)).tx = { lastAcked := s.tx.lastAcked, buf := [] } :=
    recoverBadAck_tx_of_keep seq hkeep
  have hdrop : seqOfPos s.cfg s.tx.lastAcked 0 ≠ seqSucc r.cfg r.rx.lastRecv := by
    rw [hr, seqSucc_congr hw, seqOfPos_zero]
    intro heq
    rcases seqSucc_inj heq with heq | hends | ⟨-, hzero⟩
    · exact hne heq.symm
    · exact hexc hends
    · exact h0 hzero
  have hbad := exec_notifyAck_of_no_entry hc hl hseq h0 hne hno
  have hagain := exec_notifyAck_of_no_entry (s := reply 0 (recoverBadAck seq s)) hc (by rwa [htx]) hseq h0 (by rwa [htx])
    (by simp [State.txCount])
  refine ⟨_, _, hbad, htx, ?_, hagain, ?_, rfl⟩
  · rw [State.txCount, htx]
    exact exec_checkPacket_of_not_next hdrop
  · rw [reply_tx, recoverBadAck_tx_of_keep seq hkeep', htx]

/-- Settles O56: the frames have the numbers after `TX.lastAcked` in order, each the one the receiver expects next. -/
theorem retransmissionIsAcceptedWhole : Obligations.RetransmissionIsAcceptedWhole := by
  intro s r _ hw h0 hr
  obtain ⟨t, evs, hex, htr, hseqs⟩ := exec_notifyAck_repeated_frames h0
  obtain ⟨r', evs', hrecv, htr', hres, hlast⟩ := receiveAll_of_positions s.txCount hw (i := 0) hr
  exact ⟨t, evs, r', evs', hex, htr, hseqs ▸ hrecv, htr', hres, by rwa [Nat.zero_add] at hlast⟩

/-- Settles O57: the receiver expects the number after the newest entry's, which within one turn is no entry's. -/
theorem unneededRetransmissionIsDroppedWhole : Obligations.UnneededRetransmissionIsDroppedWhole := by
  intro s r hs hw h0 hr
  have hring := lt_seqN_of_le_maxUnacked hs.cfg hs.count
  obtain ⟨t, evs, hex, htr, hseqs⟩ := exec_notifyAck_repeated_frames h0
  have hdrop : ∀ n ∈ frameSeqs evs, n ≠ seqSucc r.cfg r.rx.lastRecv := by
    rw [hseqs, hr, seqSucc_congr hw, seqSucc_seqAdvance, List.forall_mem_map]
    intro i hi
    exact seqOfPos_ne_of_lt hs.cfg hs.lastAcked (by simpa using hi) hring
  refine ⟨t, evs, _, hex, htr, receiveAll_of_none_next hdrop, rfl, ?_⟩
  rw [hseqs, List.length_map, List.length_range', emitAll_trace]

/-- Settles O11: a chunk of zeros has trimmed length 0. -/
theorem writeOfAllZeroChunkIsDropped : Obligations.WriteOfAllZeroChunkIsDropped :=
  fun _ sid k hroom => execWrite_of_zero sid hroom (trimLen_zeros k)

/-- Settles O15: case A comes first and looks at nothing but the number. -/
theorem ackOfZeroIsTheFullReset : Obligations.AckOfZeroIsTheFullReset :=
  fun s => congrArg _ (reply_fullReset s)

end Sys2Proof.Machine
end

section
/-! SUPPORT. The RX scheduler's own rules (42_rx_scheduler.md): the state an acknowledgement ends in, the frames
that complete a batch, and the deadline as the reported delay ahead of `now`. -/

namespace Sys2Proof.Machine

/-! ## The state an acknowledgement ends in -/

theorem reply_pushDeadline_sendAck (s : State) (v : Word32) (seq : Nat) : reply v (pushDeadline (sendAck seq s)) = { s with
    rx := { s.rx with unacked := 0, nextAck := timeAdd s.cfg s.now s.cfg.ackIntervalMs }
    trace := s.trace ++ [.ack seq, .result .ok v] } :=
  emitAll_emitAll { s with rx := { s.rx with unacked := 0, nextAck := timeAdd s.cfg s.now s.cfg.ackIntervalMs } }
    [.ack seq] [.result .ok v]

/-! ## Frames that complete a batch -/

/-- A receiver that stands `i` steps after `last` expects the number of position `i` (R71, R77). -/
theorem seqOfPos_eq_expected {c : Config} {last i : Nat} {r : State} (hw : r.cfg.seqW = c.seqW)
    (hr : r.rx.lastRecv = seqAdvance c last i) : seqOfPos c last i = seqSucc r.cfg r.rx.lastRecv := by
  rw [hr, seqSucc_congr hw, seqSucc_seqAdvance]

/-- The frames of `k + 1` positions in a row, as many as the batch lacks, given to a receiver that stands just before them: the
last one alone is acknowledged (R110, R113). -/
theorem receiveAll_completes_batch {c : Config} {last i : Nat} (k : Nat) {r : State} (hw : r.cfg.seqW = c.seqW)
    (hr : r.rx.lastRecv = seqAdvance c last i) (hbatch : r.rx.unacked + (k + 1) = r.cfg.maxBeforeAck) :
    ∃ t evs, receiveAll ((List.range' i (k + 1)).map (seqOfPos c last)) r = .next t ∧ t.trace = r.trace ++ evs ∧
      t.rx.unacked = 0 ∧ ackSeqs evs = [seqOfPos c last (i + k)] := by
  induction k generalizing i r with
  | zero =>
    have hnext := seqOfPos_eq_expected hw hr
    have hex := execCheckPacket_of_next_ends_batch hnext hbatch.ge
    exact ⟨_, [.ack (seqOfPos c last i), .result .ok 1], receiveAll_cons hex [],
      List.append_assoc r.trace [.ack _] [.result .ok 1], rfl, rfl⟩
  | succ k ih =>
    have hnext := seqOfPos_eq_expected hw hr
    have hex := execCheckPacket_of_next_in_batch hnext (by omega)
    obtain ⟨t, evs, hrecv, htr, hzero, hacks⟩ := ih (i := i + 1)
      (r := reply 1 (pushDeadline (countFrame (seqOfPos c last i) r))) hw rfl
      (show r.rx.unacked + 1 + (k + 1) = r.cfg.maxBeforeAck by omega)
    refine ⟨t, .result .ok 1 :: evs, ?_, ?_, hzero, ?_⟩
    · rw [List.range'_succ, List.map_cons, receiveAll_cons hex, hrecv]
    · rw [htr]
      exact List.append_assoc r.trace [.result .ok 1] evs
    · rw [ackSeqs_result, hacks, Nat.add_assoc, Nat.add_comm 1]

/-! ## Deadlines -/

theorem timeAdd_timeSub {c : Config} {a b : Nat} (ha : a < c.timeMod) (hb : b < c.timeMod) :
    timeAdd c b (timeSub c a b) = a := by
  rw [timeAdd, timeWrap]
  rcases Nat.lt_or_ge a b with hlt | hle
  · rw [timeSub_of_lt hlt hb, show b + (c.timeMod - (b - a)) = a + c.timeMod by omega, Nat.add_mod_right,
      Nat.mod_eq_of_lt ha]
  · rw [timeSub_of_le hle ha, Nat.add_sub_cancel' hle, Nat.mod_eq_of_lt ha]

theorem timeReached_self {c : Config} {t : Nat} (ht : t < c.timeMod) : timeReached c t t := by
  rw [timeReached, timeSub_of_le le_rfl ht, Nat.sub_self]
  exact Nat.two_pow_pos _

/-- With `ahead` at most half the time line to go, the deadline has not passed, and that is the time remaining (R80, R81). -/
theorem timeRemaining_of_ahead {c : Config} (h : c.Legal) {now ahead : Nat} (hnow : now < c.timeMod) (hpos : 1 ≤ ahead)
    (hle : ahead ≤ 2 ^ (c.timeW - 1)) :
    ¬ timeReached c now (timeAdd c now ahead) ∧ timeRemaining c now (timeAdd c now ahead) = ahead := by
  have hhalf := timeMod_eq_half h
  have hback : timeSub c now (timeAdd c now ahead) = c.timeMod - ahead := timeSub_self_add hnow hpos (by omega)
  have hearly : ¬ timeReached c now (timeAdd c now ahead) := by
    rw [timeReached, hback]
    omega
  refine ⟨hearly, ?_⟩
  rw [timeRemaining, if_neg hearly]
  exact timeSub_add c now ahead (by omega)

/-! ## HANDLE_TIMER -/

section

variable {s t : State}

theorem exec_handleTimer_of_due (h : timeReached s.cfg s.now s.rx.nextAck) : exec .handleTimer s = .next { s with
    rx := { s.rx with unacked := 0, nextAck := timeAdd s.cfg s.now s.cfg.ackIntervalMs }
    trace := s.trace ++ [.ack s.rx.lastRecv, .result .ok (BitVec.ofNat 32 s.cfg.ackIntervalMs)] } := by
  rw [exec, execHandleTimer_of_due h, reply_pushDeadline_sendAck]

/-- Whether the acknowledgement was due or not, the deadline is then the reported delay ahead of `now` (R115, R120). -/
theorem nextAck_eq_timerDelay_ahead (hnow : s.now < s.cfg.timeMod) (hnext : s.rx.nextAck < s.cfg.timeMod)
    (h : exec .handleTimer s = .next t) : t.rx.nextAck = timeAdd s.cfg s.now (timerDelay s) := by
  cases effect_of_exec h with
  | timerDue hdue =>
    rw [timerDelay, if_pos hdue]
    rfl
  | timerNotDue hearly =>
    have hahead : s.rx.nextAck = timeAdd s.cfg s.now (timeSub s.cfg s.rx.nextAck s.now) :=
      (timeAdd_timeSub hnext hnow).symm
    have hpos : 1 ≤ timeSub s.cfg s.rx.nextAck s.now := by
      refine Nat.one_le_iff_ne_zero.2 fun hzero => hearly ?_
      rw [hzero, timeAdd, timeWrap, Nat.add_zero, Nat.mod_eq_of_lt hnow] at hahead
      rw [hahead]
      exact timeReached_self hnow
    rw [timerDelay, if_neg hearly, max_eq_right hpos]
    exact hahead

end

/-! ## `RX.lastRecv` over a packet -/

theorem lastRecv_of_runPacket {p : List Byte} {s t : State} (h : runPacket p s = .next t) :
    t.rx.lastRecv = s.rx.lastRecv ∨ t.rx.lastRecv = seqSucc s.cfg s.rx.lastRecv := by
  rcases runPacket_cases p s with ⟨i, -, hrun⟩ | ⟨-, hrun⟩
  · rcases exec_rx_cases (hrun ▸ h) with hrx | ⟨_, -, -, hrx⟩ | ⟨-, hrx⟩ <;> rw [hrx]
    · exact .inl rfl
    · exact .inr rfl
    · exact .inl rfl
  · obtain rfl : raise .illegalCommand s = t := by simpa [hrun] using h
    exact .inl rfl

/-! ## The statements of the family -/

/-- Settles O20: the successor ends the batch or counts within it; any other number is answered and nothing else. -/
theorem checkPacketAcceptsExactlyTheSuccessor : Obligations.CheckPacketAcceptsExactlyTheSuccessor := by
  intro s seq expected batch
  refine ⟨fun hnext => ?_, execCheckPacket_of_not_next⟩
  by_cases hbatch : batch
  · rw [exec, execCheckPacket_of_next_ends_batch hnext hbatch, if_pos hbatch, if_pos hbatch]
    rfl
  · rw [exec, execCheckPacket_of_next_in_batch hnext (Nat.lt_of_not_le hbatch), if_neg hbatch, if_neg hbatch,
      List.append_nil]
    rfl

/-- Settles O22: the invariant leaves at least one frame to the batch, and the last of those it lacks is acknowledged. -/
theorem batchAckAfterMaxBeforeAckFrames : Obligations.BatchAckAfterMaxBeforeAckFrames := by
  intro s hs k
  have hpos := maxBeforeAck_pos hs.cfg
  have hunacked := hs.unacked
  obtain ⟨n, hn⟩ : ∃ n, k = n + 1 := Nat.exists_eq_add_of_le' (show 1 ≤ k by omega)
  have hrecv := receiveAll_completes_batch (c := s.cfg) (last := s.rx.lastRecv) (i := 0) n rfl rfl (by omega)
  rw [hn, List.range_eq_range']
  rwa [Nat.zero_add] at hrecv

/-- Settles O23: `late` milliseconds after the deadline, less than half the time line, it has passed. -/
theorem handleTimerWhenDueAcksOnceAndRestarts : Obligations.HandleTimerWhenDueAcksOnceAndRestarts := by
  intro s late hc _ hlate hnow
  have hhalf := timeMod_eq_half hc
  have hdue : timeReached s.cfg s.now s.rx.nextAck := by
    rw [timeReached, hnow]
    exact (timeSub_add s.cfg s.rx.nextAck late (by omega)).trans_lt hlate
  exact exec_handleTimer_of_due hdue

/-- Settles O24: the time remaining is the distance, which is at least the 1 that is reported at the least. -/
theorem handleTimerBeforeDeadlineReportsTheDistance : Obligations.HandleTimerBeforeDeadlineReportsTheDistance := by
  intro s ahead hc hnow hpos hle hnext
  have hahead : s.rx.nextAck = timeAdd s.cfg s.now ahead := hnext
  obtain ⟨hearly, hleft⟩ := timeRemaining_of_ahead hc hnow hpos hle
  rw [← hahead] at hearly hleft
  rw [exec, execHandleTimer_of_not_due hearly, hleft, max_eq_right hpos]
  rfl

/-- Settles O26: the second poll comes exactly at the deadline the first one leaves, and equality counts as passed. -/
theorem pollAfterTheReportedDelayGetsTheAck : Obligations.PollAfterTheReportedDelayGetsTheAck := by
  intro s hc hnow hnext
  obtain ⟨t, evs, value, hex, htr, hvalue⟩ := exec_handleTimer_reports hc
  have hdeadline := nextAck_eq_timerDelay_ahead hnow hnext hex
  rw [← hvalue] at hdeadline
  have hcfg := (ran_of_exec hex).cfg
  have hdue : timeReached t.cfg (timeAdd s.cfg s.now value.toNat) t.rx.nextAck := by
    rw [hcfg, hdeadline]
    exact timeReached_self (timeAdd_lt _ _ _)
  refine ⟨t, evs, value, _, _, hex, htr,
    exec_handleTimer_of_due (s := { t with now := timeAdd s.cfg s.now value.toNat }) hdue, rfl, ?_⟩
  rw [← lastRecv_of_handleTimer hex]
  rfl

/-- Settles O42: an accepted packet moves it to the successor or not at all, and nothing else but the release of reset
writes it. -/
theorem lastRecvMovesOnlyToTheNextNumber : Obligations.LastRecvMovesOnlyToTheNextNumber := by
  intro s t hno hst
  obtain ⟨-, ⟨-, rfl⟩ | ⟨_, _, -, rfl⟩ | ⟨p, now, rest, -, -, hrun⟩ | ⟨_, _, _, -, -, rfl, -⟩ | ⟨now, rest, hin, -, -⟩⟩ :=
    step_cases hst
  · exact .inl rfl
  · exact .inl rfl
  · exact lastRecv_of_runPacket (s := accept now { s with inputs := rest }) hrun
  · exact .inl rfl
  · exact absurd hin (hno now rest)

/-- Settles O21: the successor is never 0. -/
theorem checkPacketOfZeroIsAlwaysRejected : Obligations.CheckPacketOfZeroIsAlwaysRejected :=
  fun s => exec_checkPacket_of_not_next (seqSucc_ne_zero s.cfg s.rx.lastRecv).symm

end Sys2Proof.Machine
end

section
/-! SUPPORT. The exceptional conditions of R130 that a WRITE can raise, and the two ways in which nothing is accepted: no packet
presented, and a block in reset (60_exceptions.md). -/

namespace Sys2Proof.Machine

/-! ## Conditions a WRITE raises, and what they leave -/

/-- A full buffer has no flag of its own (R130): the RESULT is all that is left of the condition. -/
theorem raise_txFull (s : State) :
    raise .txFull s = { s with trace := s.trace ++ [.result .errFull 0] } := rfl

/-- An oversize chunk leaves TXFATAL and its RESULT (R132). -/
theorem raise_txFatalOversize (s : State) : raise .txFatalOversize s = { s with
    status := { s.status with txFatal := true }
    trace := s.trace ++ [.result .errFatalOversize 0] } := rfl

/-- TXFATAL is a fault mark (R132). -/
theorem faulted_raise_txFatalOversize (s : State) : (raise .txFatalOversize s).faulted = true :=
  Bool.true_or _

/-- What is oversize is the trimmed chunk: zeros after the last non-zero byte do not count (R82, R132). -/
theorem exec_write_of_oversize {s : State} (sid : Nat) {body : List Byte} {last : Byte} (k : Nat)
    (hroom : s.txCount ≠ s.cfg.maxUnacked) (hlast : last ≠ 0) (hbig : s.cfg.maxFrame < body.length + 1) :
    exec (.write sid (body ++ [last] ++ zeros k)) s = .next (raise .txFatalOversize s) := by
  have htrim : trimLen (body ++ [last]) = body.length + 1 := trimLen_concat body hlast
  rw [exec, execWrite_append_zeros]
  exact execWrite_of_oversize sid hroom (by omega) (by omega)

/-! ## The statements of the family -/

/-- Settles O7: without an input no branch of the commands is reached, and in reset a packet is not transferred. -/
theorem nothingHappensWithoutAnAcceptedCommand : Obligations.NothingHappensWithoutAnAcceptedCommand :=
  fun s hl => ⟨step_of_no_input hl, fun p now rest hreset hin =>
    (step_of_input hl hin).trans (takePacket_of_inReset (s := { s with inputs := rest }) hreset p now)⟩

/-- Settles O10: capacity is tested before anything else, so the chunk is not looked at. -/
theorem writeToFullBufferReports1 : Obligations.WriteToFullBufferReports1 := by
  intro s sid chunk hfull
  refine ⟨rfl, ?_⟩
  rw [exec, execWrite_of_full sid chunk hfull, raise_txFull]

/-- Settles O12: the chunk is oversize by its trimmed length, and the condition it raises marks TXFATAL. -/
theorem writeOfOversizeChunkSetsTxfatal : Obligations.WriteOfOversizeChunkSetsTxfatal := by
  intro s sid body last k hroom hlast hbig
  have hex := exec_write_of_oversize sid k hroom hlast hbig
  refine ⟨rfl, hex.trans (congrArg _ (raise_txFatalOversize s)), fun t ht => ?_⟩
  obtain rfl : raise .txFatalOversize s = t := Host.Outcome.next.inj (hex.symm.trans ht)
  exact faulted_raise_txFatalOversize s

end Sys2Proof.Machine
end

section
/-! SUPPORT. The fall of reset (R155): what a command it cuts has let through, and that a block already in reset is left as it
is. -/

namespace Sys2Proof.Machine

/-- A block in reset stays as it is when `rst_n` is said to fall again (log 6). -/
theorem assertReset_of_inReset {s : State} (h : s.inReset = true) : assertReset s = s := by
  rw [assertReset, ← h]

/-- In reset no packet is transferred, so there is no command to cut (log 6). -/
theorem cutCommand_of_inReset {s : State} (h : s.inReset = true) (p : List Byte) (now k : Nat) :
    cutCommand p now k s = .next s := by
  have hnone : emitAll (eventsBeforeCut k s s) s = s := by simp [eventsBeforeCut, emitAll]
  rw [cutCommand_of_next k (takePacket_of_inReset h p now), hnone, assertReset_of_inReset h]

/-- The first `k` elements of a list are `k`, or they are fewer and nothing is left. -/
theorem length_take_or_drop_eq_nil {α : Type} (k : Nat) (l : List α) :
    (l.take k).length = k ∨ (l.take k).length < k ∧ l.drop k = [] := by
  rw [List.length_take, List.drop_eq_nil_iff]
  omega

/-- The events of a running block's packet are those before its RESULT, of which a cut after `k` of them lets through the first
`k` (R155). -/
theorem cutCommand_of_running {s : State} (h : s.inReset = false) (p : List Byte) (now k : Nat) :
    ∃ evs code value u, takePacket p now s = .next u ∧ u.trace = s.trace ++ evs ++ [.result code value] ∧
      resultPort evs = [] ∧ cutCommand p now k s = .next (assertReset (emitAll (evs.take k) s)) := by
  obtain ⟨u, hu⟩ := takePacket_answers p now s
  obtain ⟨evs, code, value, htr, hres, -⟩ := everyAcceptedPacketGivesOneResultLast s u p now h hu
  refine ⟨evs, code, value, u, hu, htr, hres, ?_⟩
  rw [cutCommand_of_next k hu, eventsBeforeCut_eq k htr]

/-! ## The statement of the family -/

/-- Settles O36: the events of the whole command split into the first `k`, which a cut lets through, and the rest. -/
theorem cutCommandKeepsOnlyTheEventsAlreadyTransferred : Obligations.CutCommandKeepsOnlyTheEventsAlreadyTransferred := by
  intro s rest hl
  refine ⟨step_of_input hl, fun p now k hreset hin => ?_, fun p now k hrun hin => ?_⟩
  · exact (step_of_input hl hin).trans (cutCommand_of_inReset (s := { s with inputs := rest }) hreset p now k)
  · obtain ⟨evs, code, value, u, hu, htr, hres, hcut⟩ :=
      cutCommand_of_running (s := { s with inputs := rest }) hrun p now k
    have hsplit : resultPort (evs.take k) ++ resultPort (evs.drop k) = [] := by
      rw [← resultPort_append, List.take_append_drop, hres]
    obtain ⟨htake, hdrop⟩ := List.append_eq_nil_iff.1 hsplit
    refine ⟨evs.take k, evs.drop k, code, value, u, hu, ?_, htake, hdrop, length_take_or_drop_eq_nil k evs,
      (step_of_input hl hin).trans hcut⟩
    rw [htr, List.append_assoc s.trace (evs.take k), List.take_append_drop]

end Sys2Proof.Machine
end
